-- ==== Sys2Proof/Word.lean ====
section
/-! DEFINITION. The widths of the block's values (spec/00_scope.md R9, R13, R15; spec/30_encoding.md R82). -/

namespace Sys2Proof

/-- One event word: the spec's 32-bit spelling of one operation (R82). -/
abbrev Word := BitVec 32

/-- One decoded byte register, `u8` (R15, R39). -/
abbrev Byte := BitVec 8

/-- One pulse-width sample, and one value of the timer counter, `u16` (R9, R10, R71). -/
abbrev Sample := BitVec 16

/-- The opaque pin identifier, `PIN_W = 8` bits (R13, R37). -/
abbrev Pin := BitVec 8

/-- An instance index: the 4-bit `inst` field of an event word reaches 16 instances (R13, R83; log 7). -/
abbrev InstIx := Fin 16

end Sys2Proof
end

