-- ==== Sys2Proof/Config.lean ====
section
/-! DEFINITION. What is fixed for the machine: the parameters of spec/00_scope.md R8 to R13, and the values the spec
leaves open (opaque constants: nothing can be proved of their value). -/

namespace Sys2Proof.Config

/-- `PB_CAPACITY` (R8). -/
abbrev pbCapacity : Nat := 42
/-- `LEAD_IN`: samples at the front of the buffer that the decoder skips (R8). -/
@[simp] abbrev leadIn : Nat := 1
/-- `N_BITS`: data bits of a frame (R8). -/
@[simp] abbrev nBits : Nat := 40
/-- `N_CAPTURE = LEAD_IN + N_BITS`: stored samples that complete an interrupt-driven acquisition (R8, R115). -/
@[simp] abbrev nCapture : Nat := leadIn + nBits
/-- `TICK_HZ`, an argument of the timer's initialisation (R10, R112). -/
abbrev tickHz : Nat := 250000
/-- `CNT_W`, an argument of the timer's initialisation (R10, R112). -/
abbrev cntW : Nat := 16
/-- `N_INST`, the number of instances. DESIGN CHOICE (log 7): all that an event word can name. Safe. -/
abbrev nInst : Nat := 16

/-- The parameters that a build of the block fixes and that a model may be instantiated with (R10 to R12). Every
procedure that reads one takes them as an argument. -/
structure Params where
  /-- `LOGIC_1`, the logic-1 threshold (R12). -/
  logic1 : Sample
  /-- `POLL_STOP`, the stored samples at which the polling loop stops early (R11). -/
  pollStop : Nat
  /-- `POLL_BUDGET`, the iterations of the polling loop (R11). -/
  pollBudget : Nat
  /-- `TIMEOUT_TICKS`, the compare value loaded into the timer (R10). -/
  timeoutTicks : Nat
  deriving DecidableEq, Repr

/-- `LOGIC_1` is OPEN (R12, D5): any value. -/
opaque logic1 : Sample

/-- The parameters of this machine: `LOGIC_1` open, the others at the values the spec states or decides as defaults
(R10, R11, D3, D4; log 5, log 6). -/
def params : Params := { logic1 := logic1, pollStop := 41, pollBudget := 10000, timeoutTicks := 5000 }

/-! Contents the spec calls unspecified at reset (spec/70_reset_and_hazards.md R240; "a model must not assume 0",
spec/10_state.md R41). DESIGN CHOICE (log 8): a constant with no body, one value for every run. -/

/-- `pin[i]` before `CFG i` (R37, R240). -/
opaque resetPin : InstIx → Pin
/-- `has_timer[i]` before `CFG i` (R38, R240). -/
opaque resetHasTimer : InstIx → Bool
/-- `H0[i]` before the first `DECODE i` (R41, R240). -/
opaque resetH0 : InstIx → Byte
/-- `H1[i]` before the first `DECODE i` (R41, R240). -/
opaque resetH1 : InstIx → Byte
/-- `T0[i]` before the first `DECODE i` (R41, R240). -/
opaque resetT0 : InstIx → Byte
/-- `T1[i]` before the first `DECODE i` (R41, R240). -/
opaque resetT1 : InstIx → Byte
/-- `CHK[i]` before the first `DECODE i` (R41, R240). -/
opaque resetChk : InstIx → Byte
/-- `REF` before the first arming (R43, R240). -/
opaque resetRef : Sample
/-- `HICNT` before the first polling loop (R44, R240). -/
opaque resetHicnt : Sample
/-- `ITER` before the first polling loop, 14 bits (R44, R240). -/
opaque resetIter : BitVec 14

/-! What an accessor returns while `in_progress[i] = 1` is any value of its type (spec/44_host_operations.md R180,
U2; log 10): a constant with no body, applied to the count of values drawn so far. -/

/-- What `ISOK` returns when its value is unspecified. -/
opaque unspecOk : Nat → Bool
/-- What `TEMP` returns when its value is unspecified. -/
opaque unspecTemp : Nat → BitVec 15
/-- What `HUM` returns when its value is unspecified. -/
opaque unspecHum : Nat → BitVec 16

end Sys2Proof.Config
end

