-- ==== Sys2Proof/Syntax.lean ====
section
/-! DEFINITION. The nine operations of the block (spec/30_encoding.md R82 to R84, spec/opcode_table.json), who issues
them (spec/60_exceptions.md R214, R215) and how they are spelled as text (spec/30_encoding.md R87). -/

namespace Sys2Proof

/-- The operations, one constructor per row of spec/opcode_table.json, with the fields of R83. `tok`, `cnt0`, `cnt`
and `lvl` are answers of the environment that ride in the word (R83, R216). -/
inductive Instr where
  /-- `CFG i, pin, tmr`: create and configure an instance (R170). -/
  | cfg (i : InstIx) (pin : Pin) (tmr : Bool)
  /-- `READ i, tok, cnt0`: start a read (R171). -/
  | read (i : InstIx) (tok : Bool) (cnt0 : Sample)
  /-- `EDGE cnt`: the falling-edge callback (R114). -/
  | edge (cnt : Sample)
  /-- `TMO`: the compare-match callback (R116). -/
  | tmo
  /-- `POLL lvl`: one iteration of the polling loop (R134). -/
  | poll (lvl : Bool)
  /-- `ISOK i`: is the last read good (R177). -/
  | isok (i : InstIx)
  /-- `TEMP i`: temperature of the last decode (R179). -/
  | temp (i : InstIx)
  /-- `HUM i`: humidity of the last decode (R178). -/
  | hum (i : InstIx)
  /-- `RDW i, tok, cnt0`: blocking read (R175). -/
  | rdw (i : InstIx) (tok : Bool) (cnt0 : Sample)
  deriving DecidableEq, Repr

/-- The agents outside the block that issue operations (R214 to R216). -/
inductive Agent where
  /-- the single application thread -/
  | host
  /-- the sensor and the edge detector -/
  | line
  /-- the timer -/
  | timer
  deriving DecidableEq, Repr

/-- The two execution contexts of R214. -/
inductive Context where
  /-- the application thread: the host's operations and the whole polling loop -/
  | thread
  /-- the interrupt/event context: the two callbacks -/
  | interrupt
  deriving DecidableEq, Repr

namespace Instr

/-- The agent that issues an operation (R84, R215). -/
def agent : Instr → Agent
  | .cfg _ _ _  => .host
  | .read _ _ _ => .host
  | .edge _     => .line
  | .tmo        => .timer
  | .poll _     => .line
  | .isok _     => .host
  | .temp _     => .host
  | .hum _      => .host
  | .rdw _ _ _  => .host

/-- The context an operation runs in (R214). -/
def context : Instr → Context
  | .cfg _ _ _  => .thread
  | .read _ _ _ => .thread
  | .edge _     => .interrupt
  | .tmo        => .interrupt
  | .poll _     => .thread
  | .isok _     => .thread
  | .temp _     => .thread
  | .hum _      => .thread
  | .rdw _ _ _  => .thread

/-- The instance an operation names, none in format E (R82). -/
def inst? : Instr → Option InstIx
  | .cfg i _ _  => some i
  | .read i _ _ => some i
  | .edge _     => none
  | .tmo        => none
  | .poll _     => none
  | .isok i     => some i
  | .temp i     => some i
  | .hum i      => some i
  | .rdw i _ _  => some i

/-- The mnemonic of an operation (R84). -/
def mnemonic : Instr → String
  | .cfg _ _ _  => "CFG"
  | .read _ _ _ => "READ"
  | .edge _     => "EDGE"
  | .tmo        => "TMO"
  | .poll _     => "POLL"
  | .isok _     => "ISOK"
  | .temp _     => "TEMP"
  | .hum _      => "HUM"
  | .rdw _ _ _  => "RDW"

/-- A 1-bit operand as text (R87). -/
def bitText (b : Bool) : String := if b then "1" else "0"

/-- An instance as text, `i0` to `i15` (R87). -/
def instText (i : InstIx) : String := "i" ++ toString i.val

/-- The operation as one line of text, numbers in decimal (R87; log 22). -/
def text : Instr → String
  | .cfg i pin tmr   => "CFG " ++ instText i ++ ", " ++ toString pin.toNat ++ ", " ++ bitText tmr
  | .read i tok cnt0 => "READ " ++ instText i ++ ", " ++ bitText tok ++ ", " ++ toString cnt0.toNat
  | .edge cnt        => "EDGE " ++ toString cnt.toNat
  | .tmo             => "TMO"
  | .poll lvl        => "POLL " ++ bitText lvl
  | .isok i          => "ISOK " ++ instText i
  | .temp i          => "TEMP " ++ instText i
  | .hum i           => "HUM " ++ instText i
  | .rdw i tok cnt0  => "RDW " ++ instText i ++ ", " ++ bitText tok ++ ", " ++ toString cnt0.toNat

end Instr

end Sys2Proof
end

