-- ==== Sys2Proof/Machine/State.lean ====
section
/-! DEFINITION. The state of the block (spec/10_state.md), its value at reset (spec/70_reset_and_hazards.md R240), and
the reasons a step can stop. -/

namespace Sys2Proof.Machine

/-- The five error kinds (R34, R80, R200). `config` is never raised (R203). -/
inductive ErrorKind where
  | none
  | config
  | timeout
  | checksum
  | noTimer
  deriving DecidableEq, Repr

/-- The six acquisition states (R30, R81). -/
inductive Acq where
  | idle
  | armed
  | sampling
  | complete
  | timedOut
  | polling
  deriving DecidableEq, Repr

/-- The five decoded bytes of one frame, in the order they are sent: humidity high and low, temperature high and
low, checksum (R39, R59, R70). -/
structure Frame where
  h0  : Byte
  h1  : Byte
  t0  : Byte
  t1  : Byte
  chk : Byte
  deriving DecidableEq, Repr

/-- The Pulse Buffer: 42 entries, each empty or a sample, and the cursor `CUR` (R20, R25). -/
structure PulseBuffer where
  /-- `PB[0]` to `PB[41]`; `none` is the mark `empty`. -/
  entry : Vector (Option Sample) Config.pbCapacity
  /-- `CUR`, the index of the next entry to be written. -/
  cur : Nat
  deriving DecidableEq, Repr

/-- The fields of one `SensorInstance` (R33, R34, R36 to R39). -/
structure SensorInstance where
  /-- `configured[i]` (R36) -/
  configured : Bool
  /-- `pin[i]` (R37) -/
  pin : Pin
  /-- `has_timer[i]` (R38) -/
  hasTimer : Bool
  /-- `in_progress[i]` (R33), also the port `busy[i]` (R90) -/
  inProgress : Bool
  /-- `error[i]` (R34) -/
  error : ErrorKind
  /-- `H0[i]`, `H1[i]`, `T0[i]`, `T1[i]`, `CHK[i]`, written together (R39) -/
  bytes : Frame
  deriving DecidableEq, Repr

/-- A command on the port `line_drv` for one pin (R90, R101, R132). -/
inductive LineCmd where
  /-- configure the pin as an output -/
  | output
  /-- configure the pin as an input, no pull resistor -/
  | inputNoPull
  /-- drive the level -/
  | level (high : Bool)
  deriving DecidableEq, Repr

/-- A command on the port `tmr_ctl` (R90, R112, R117). -/
inductive TimerCmd where
  /-- initialise a counter of this width at this tick rate, timeout callback TMO -/
  | init (tickHz width : Nat)
  /-- compare match at this count, stop on match -/
  | compare (ticks : Nat)
  | enable
  | disable
  | release
  deriving DecidableEq, Repr

/-- A command on the port `irq_ctl` (R90, R112, R117). -/
inductive IrqCmd where
  /-- register the falling-edge callback EDGE on a pin -/
  | register (pin : Pin)
  | enable
  | disable
  | release
  deriving DecidableEq, Repr

/-- What the block puts on an output port in a step (R90 to R92). The port `ret` carries 1, 15 or 16 bits (R91). -/
inductive Output where
  | lineDrv (pin : Pin) (c : LineCmd)
  | tmrCtl (c : TimerCmd)
  | irqCtl (c : IrqCmd)
  | retOk (ok : Bool)
  | retTemp (tenths : BitVec 15)
  | retHum (tenths : BitVec 16)
  deriving DecidableEq, Repr

/-- The state of the block and of its surroundings as far as the spec describes them. -/
structure State where
  /-- `PB` and `CUR` (R20, R25) -/
  pb : PulseBuffer
  /-- `ACQ` (R30) -/
  acq : Acq
  /-- `ACTIVE` (R35) -/
  active : Option InstIx
  /-- the instances (R33, R34, R36 to R39; log 7) -/
  sensors : Vector SensorInstance Config.nInst
  /-- `REF` (R43) -/
  ref : Sample
  /-- `HICNT` (R44) -/
  hicnt : Sample
  /-- `ITER` (R44) -/
  iter : Nat
  /-- `PINST` (R44) -/
  pinst : Option InstIx
  /-- `TIMER_HELD` (R45) -/
  timerHeld : Bool
  /-- `IRQ_REG` (R45) -/
  irqReg : Bool
  /-- `REL_T` (R46) -/
  relT : Nat
  /-- `REL_G` (R46) -/
  relG : Nat
  /-- the instance whose `RDW` the host is blocked in (R175; log 9) -/
  hostWait : Option InstIx
  /-- the output trace, oldest first (R92; log 11) -/
  out : List Output
  /-- the model's own: how many unspecified results have been drawn (log 10) -/
  draws : Nat
  /-- the model's own: the event words still to be issued, oldest first (log 1) -/
  events : List Word
  deriving DecidableEq, Repr

/-- A step never faults: "The block has no fault outcome: no operation traps or halts the block" (R16; log 4). So
there is no fault reason, and nothing raises one. -/
inductive Fault where
  deriving DecidableEq, Repr

/-- Why an operation is refused: the spec gives it no meaning in the state, changes nothing and marks the refusal
(R15, R16, D16, D26). Safe: the run stops where the spec gives no step (log 3, log 12). -/
inductive Refusal where
  /-- An instruction without a meaning in this model; raised only by a refused arm of exec, and there is none. Safe. -/
  | notModelled (mnemonic : String)
  /-- Raised by the fetch: `op` is 9 to 15 (R85). Safe. -/
  | reservedOp
  /-- Raised by the fetch: a must-be-zero bit is set (R85). Safe. -/
  | mustBeZero
  /-- Raised by every operation but POLL while `ACQ = POLLING` (R133). Safe. -/
  | pollingLoopRuns
  /-- Raised by a host operation while the host is blocked in RDW (R175; log 9). Safe. -/
  | hostBlocked
  /-- Raised by CFG of a configured instance (R170). Safe. -/
  | alreadyConfigured
  /-- Raised by READ, RDW and the accessors of an instance not configured (R172, R177). Safe. -/
  | notConfigured
  /-- Raised by READ and RDW while `in_progress[i] = 1` (R172). Safe. -/
  | readInProgress
  /-- Raised by READ and RDW while `ACTIVE` is not none (R172). Safe. -/
  | anotherReadActive
  /-- Raised by POLL while `ACQ` is not POLLING (R134). Safe. -/
  | noPollingLoop
  deriving DecidableEq, Repr

/-- One instance at reset (R240): not configured, no read, no error, the rest unspecified (log 8). -/
def SensorInstance.reset (i : InstIx) : SensorInstance :=
  { configured := false
    pin := Config.resetPin i
    hasTimer := Config.resetHasTimer i
    inProgress := false
    error := .none
    bytes := { h0 := Config.resetH0 i, h1 := Config.resetH1 i, t0 := Config.resetT0 i, t1 := Config.resetT1 i,
               chk := Config.resetChk i } }

/-- The state before the first operation (R240). -/
def State.reset : State :=
  { pb := { entry := Vector.replicate Config.pbCapacity none, cur := 0 }
    acq := .idle
    active := none
    sensors := #v[SensorInstance.reset 0, SensorInstance.reset 1, SensorInstance.reset 2, SensorInstance.reset 3,
                  SensorInstance.reset 4, SensorInstance.reset 5, SensorInstance.reset 6, SensorInstance.reset 7,
                  SensorInstance.reset 8, SensorInstance.reset 9, SensorInstance.reset 10, SensorInstance.reset 11,
                  SensorInstance.reset 12, SensorInstance.reset 13, SensorInstance.reset 14, SensorInstance.reset 15]
    ref := Config.resetRef
    hicnt := Config.resetHicnt
    iter := Config.resetIter.toNat
    pinst := none
    timerHeld := false
    irqReg := false
    relT := 0
    relG := 0
    hostWait := none
    out := []
    draws := 0
    events := [] }

end Sys2Proof.Machine
end

