-- ==== Sys2Proof/Machine/Operands.lean ====
section
/-! DEFINITION. The computed operands: the decoder's index (spec/43_bit_decoder.md R151), the pulse-width delta
(spec/41_interrupt_capture.md R120), the assembly of the decoded quantities (spec/30_encoding.md R73 to R75), the
codes of the enumerations (R80, R81) and the physical value of a result (spec/44_host_operations.md R181). The block
has no other operand forms (R76). -/

namespace Sys2Proof.Machine

/-- The buffer index of bit `j`, in arrival order, of byte slot `s` (R151). -/
def frameIndex (s j : Nat) : Nat := Config.leadIn + 8 * s + j

/-- `(cnt - REF) mod 2^16` (R120). -/
def pulseDelta (cnt ref : Sample) : Sample := cnt - ref

/-- `HUM_TENTHS = (H0 << 8) | H1` (R73). -/
def humTenths (f : Frame) : BitVec 16 := (f.h0.setWidth 16 <<< 8) ||| f.h1.setWidth 16

/-- `TEMP_TENTHS = ((T0 & 0x7F) << 8) | T1`, 15 bits (R74). -/
def tempTenths (f : Frame) : BitVec 15 := ((f.t0 &&& 0x7F#8).setWidth 15 <<< 8) ||| f.t1.setWidth 15

/-- `SUM`, the sum of the four data bytes modulo 256, `T0` unmasked (R75, R153). -/
def Frame.sum (f : Frame) : Byte := f.h0 + f.h1 + f.t0 + f.t1

/-- The physical value of a count of tenths, an exact rational (R181). -/
def physicalValue (tenths : Nat) : Rat := (tenths : Rat) / 10

/-- The codes of the error kinds (R80). -/
def ErrorKind.code : ErrorKind → BitVec 3
  | .none     => 0#3
  | .config   => 1#3
  | .timeout  => 2#3
  | .checksum => 3#3
  | .noTimer  => 4#3

/-- The codes of the acquisition states (R81). -/
def Acq.code : Acq → BitVec 3
  | .idle     => 0#3
  | .armed    => 1#3
  | .sampling => 2#3
  | .complete => 3#3
  | .timedOut => 4#3
  | .polling  => 5#3

end Sys2Proof.Machine
end

