-- ==== Sys2Proof/Machine/Ops.lean ====
section
/-! DEFINITION. The named operations over the state: the buffer procedures (spec/20_memory.md R52 to R54), access to
an instance, recording an error (`raise`, spec/00_scope.md R15: the whole of what an exception does here; there is no
entry to save and no return to restore, spec/60_exceptions.md R211, R212), the end of a read, the output ports
(spec/30_encoding.md R90 to R92) and the handshake (spec/40_handshake.md R101). -/

namespace Sys2Proof.Machine

/-! ## The Pulse Buffer -/

/-- The content of `PB_RESET`: every entry empty, cursor 0 (R54). -/
def PulseBuffer.empty : PulseBuffer := { entry := Vector.replicate Config.pbCapacity none, cur := 0 }

/-- `PB_WRITE(v)`: store at the cursor and advance it; at capacity the write is dropped (R53). -/
def PulseBuffer.write (b : PulseBuffer) (v : Sample) : PulseBuffer :=
  if h : b.cur < Config.pbCapacity then { entry := b.entry.set b.cur (some v) h, cur := b.cur + 1 } else b

/-- `PB_READ(k)`: an index at or beyond the cursor is not accessed and reads as empty (R52). The spec forms no read
outside 0 to 41 (R56). -/
def PulseBuffer.read (b : PulseBuffer) (k : Nat) : Option Sample :=
  if b.cur ≤ k then none else if h : k < Config.pbCapacity then b.entry[k] else none

/-- The buffer invariant of R55, with the cursor's range of R25: an entry is written exactly when it lies below the
cursor. -/
abbrev PulseBuffer.wf (b : PulseBuffer) : Prop :=
  b.cur ≤ Config.pbCapacity ∧ ∀ k : Fin Config.pbCapacity, b.entry[k].isSome = decide (k.val < b.cur)

/-! ## Instances -/

/-- The fields of instance `i` (R15, R220). -/
def State.sensor (s : State) (i : InstIx) : SensorInstance := s.sensors[i]

/-- Write the fields of instance `i`, all others unchanged. -/
def State.setSensor (s : State) (i : InstIx) (x : SensorInstance) : State :=
  { s with sensors := s.sensors.set i.val x i.isLt }

/-! ## Output ports -/

/-- Append to the output trace (R92, log 11). -/
def State.emit (s : State) (os : List Output) : State := { s with out := s.out ++ os }

/-! ## Errors and the end of a read -/

/-- `raise E(i)`: `error[i] <- E` and nothing else (R15, R204). -/
def raise (e : ErrorKind) (i : InstIx) (s : State) : State := s.setSensor i { s.sensor i with error := e }

/-- `in_progress[i] <- 1` (R33). -/
def beginRead (i : InstIx) (s : State) : State := s.setSensor i { s.sensor i with inProgress := true }

/-- `in_progress[i] <- 0` (R33); a host blocked in `RDW i` is blocked no more (R175, log 9). -/
def endRead (i : InstIx) (s : State) : State :=
  let s := s.setSensor i { s.sensor i with inProgress := false }
  { s with hostWait := if s.hostWait = some i then none else s.hostWait }

/-! ## Buffer steps on the state -/

/-- `PB_RESET()` (R54). -/
def pbReset (s : State) : State := { s with pb := PulseBuffer.empty }

/-- `PB_WRITE(v)` (R53). -/
def pbWrite (v : Sample) (s : State) : State := { s with pb := s.pb.write v }

/-! ## The handshake and the resources -/

/-- What `HANDSHAKE(i)` drives: output, 1, 0, 1 (R101). The holds between are timing (R14, log 19). -/
def handshakeTrace (p : Pin) : List Output :=
  [.lineDrv p .output, .lineDrv p (.level true), .lineDrv p (.level false), .lineDrv p (.level true)]

/-- `HANDSHAKE(i)`: drives the line and writes no state of the block (R100, R101). -/
def handshake (i : InstIx) (s : State) : State := s.emit (handshakeTrace (s.sensor i).pin)

/-- The commands that arm the timer and the edge callback (R112). -/
def armTrace (p : Config.Params) (pin : Pin) : List Output :=
  [.tmrCtl (.init Config.tickHz Config.cntW), .tmrCtl (.compare p.timeoutTicks), .tmrCtl .enable,
   .irqCtl (.register pin), .irqCtl .enable]

/-- The commands that tear both down (R117). -/
def releaseTrace : List Output := [.tmrCtl .disable, .tmrCtl .release, .irqCtl .disable, .irqCtl .release]

/-- The release part of `FINISH` (R117): both resources disabled and released, the ghost counters count it (R46). -/
def releaseResources (s : State) : State :=
  { s.emit releaseTrace with timerHeld := false, irqReg := false, relT := s.relT + 1, relG := s.relG + 1 }

end Sys2Proof.Machine
end

