-- ==== Sys2Proof/Machine/Flags.lean ====
section
/-! DEFINITION. What the flags decide: which operation is admitted in which state (spec/44_host_operations.md R170,
R172, R177; spec/42_polling_capture.md R133, R134; spec/41_interrupt_capture.md R114, R116). An admission test answers
the reason of the refusal, or none when the operation is admitted. Where several reasons hold at once, the first in the
order written is named (log 12). The block has no arithmetic condition codes (spec/10_state.md section 4). -/

namespace Sys2Proof.Machine

/-- A test of one condition: the refusal when it holds. -/
def refuseIf (c : Bool) (r : Refusal) (rest : Option Refusal) : Option Refusal := if c then some r else rest

/-- While the polling loop runs only POLL is admitted (R133). -/
def State.isPolling (s : State) : Bool := decide (s.acq = .polling)

/-- The host has no enabled operation while the polling loop runs (R133) or while it waits in RDW (R175). -/
def hostGate (s : State) (rest : Option Refusal) : Option Refusal :=
  refuseIf s.isPolling .pollingLoopRuns <| refuseIf s.hostWait.isSome .hostBlocked rest

/-- Admission of `CFG i` (R170). -/
def admitCfg (i : InstIx) (s : State) : Option Refusal :=
  hostGate s <| refuseIf (s.sensor i).configured .alreadyConfigured none

/-- Admission of `READ i` and of `RDW i` (R172). -/
def admitRead (i : InstIx) (s : State) : Option Refusal :=
  hostGate s <| refuseIf (!(s.sensor i).configured) .notConfigured <|
    refuseIf (s.sensor i).inProgress .readInProgress <| refuseIf s.active.isSome .anotherReadActive none

/-- Admission of `ISOK i`, `TEMP i`, `HUM i` (R177 to R179). -/
def admitAccessor (i : InstIx) (s : State) : Option Refusal :=
  hostGate s <| refuseIf (!(s.sensor i).configured) .notConfigured none

/-- Admission of `EDGE` and `TMO`: every state but POLLING (R114, R116, R133). -/
def admitCallback (s : State) : Option Refusal := refuseIf s.isPolling .pollingLoopRuns none

/-- Admission of `POLL`: the polling loop runs (R134). -/
def admitPoll (s : State) : Option Refusal := refuseIf (!s.isPolling) .noPollingLoop none

/-- Take the step when the operation is admitted, refuse it otherwise (R16). -/
def admitted (a : Option Refusal) (t : State) : Host.Outcome State Fault Refusal :=
  match a with
  | none   => .next t
  | some r => .refused r

end Sys2Proof.Machine
end

