-- ==== Sys2Proof/Machine/Accessors.lean ====
section
/-! DEFINITION. The accessors ISOK, TEMP, HUM (spec/44_host_operations.md R177 to R182). They write no state of the
block; what they return goes to the output trace. While `in_progress[i] = 1` the result is a free value (R180, log 10). -/

namespace Sys2Proof.Machine

/-- Return the value of instance `i` on the port `ret`: `free` of the count of draws while a read of `i` runs, and
`known` otherwise (R177 to R180). -/
def answer (i : InstIx) (free : Nat → Output) (known : Output) (s : State) : State :=
  if (s.sensor i).inProgress then { s.emit [free s.draws] with draws := s.draws + 1 } else s.emit [known]

/-- What `ISOK i` answers when specified: 1 exactly for NONE (R177). -/
def isOk (x : SensorInstance) : Bool := decide (x.error = .none)

/-- The meaning of `ISOK i` (R177). -/
def execIsok (i : InstIx) (s : State) : Host.Outcome State Fault Refusal :=
  admitted (admitAccessor i s)
    (answer i (fun n => .retOk (Config.unspecOk n)) (.retOk (isOk (s.sensor i))) s)

/-- The meaning of `TEMP i` (R179). -/
def execTemp (i : InstIx) (s : State) : Host.Outcome State Fault Refusal :=
  admitted (admitAccessor i s)
    (answer i (fun n => .retTemp (Config.unspecTemp n)) (.retTemp (tempTenths (s.sensor i).bytes)) s)

/-- The meaning of `HUM i` (R178). -/
def execHum (i : InstIx) (s : State) : Host.Outcome State Fault Refusal :=
  admitted (admitAccessor i s)
    (answer i (fun n => .retHum (Config.unspecHum n)) (.retHum (humTenths (s.sensor i).bytes)) s)

end Sys2Proof.Machine
end

