-- ==== Sys2Proof/Machine/Decoder.lean ====
section
/-! DEFINITION. The bit decoder: CLASSIFY, REASSEMBLE, DECODE (spec/43_bit_decoder.md). They take the threshold as an
argument; DECODE is called by FINISH and by POLL_END only. -/

namespace Sys2Proof.Machine

/-- `CLASSIFY(k)`: 1 when the sample exceeds the threshold, unsigned and strict; an entry not written is a 0 (R150). -/
def classify (logic1 : Sample) (b : PulseBuffer) (k : Nat) : Bool :=
  match b.read k with
  | none   => false
  | some v => decide (v.toNat > logic1.toNat)

/-- One shift-and-insert step of a byte (R152). -/
def shiftIn (b : Byte) (bit : Bool) : Byte := (b <<< 1) ||| (BitVec.ofBool bit).setWidth 8

/-- One round of the outer loop: bit `j` into each of the five byte slots (R152). -/
def shiftRound (logic1 : Sample) (b : PulseBuffer) (f : Frame) (j : Nat) : Frame :=
  { h0  := shiftIn f.h0  (classify logic1 b (frameIndex 0 j))
    h1  := shiftIn f.h1  (classify logic1 b (frameIndex 1 j))
    t0  := shiftIn f.t0  (classify logic1 b (frameIndex 2 j))
    t1  := shiftIn f.t1  (classify logic1 b (frameIndex 3 j))
    chk := shiftIn f.chk (classify logic1 b (frameIndex 4 j)) }

/-- `REASSEMBLE()`: the bytes cleared, then eight rounds (R152). -/
def reassemble (logic1 : Sample) (b : PulseBuffer) : Frame :=
  (List.range 8).foldl (shiftRound logic1 b) { h0 := 0, h1 := 0, t0 := 0, t1 := 0, chk := 0 }

/-- `DECODE(i)`: all five byte registers written, then CHECKSUM recorded on a mismatch when no error is recorded
(R154 to R156). -/
def decodeInto (logic1 : Sample) (i : InstIx) (s : State) : State :=
  let f := reassemble logic1 s.pb
  let s := s.setSensor i { s.sensor i with bytes := f }
  if f.sum ≠ f.chk ∧ (s.sensor i).error = .none then raise .checksum i s else s

end Sys2Proof.Machine
end

