-- ==== Sys2Proof/Machine/Capture.lean ====
section
/-! DEFINITION. Capture by the interrupt strategy: ARM, FINISH, EDGE, TMO (spec/41_interrupt_capture.md). -/

namespace Sys2Proof.Machine

/-- `ARM(i, tok, cnt0)` (R112); a failed acquisition aborts the read with NO_TIMER (R113). -/
def arm (p : Config.Params) (i : InstIx) (tok : Bool) (cnt0 : Sample) (s : State) : State :=
  if tok then
    { s.emit (armTrace p (s.sensor i).pin) with
      timerHeld := true, irqReg := true, ref := cnt0, active := some i, acq := .armed }
  else
    { endRead i (raise .noTimer i s) with acq := .idle }

/-- `FINISH()` (R117): a no-op when `ACTIVE` is none. -/
def finish (p : Config.Params) (s : State) : State :=
  match s.active with
  | none   => s
  | some i =>
    let s := releaseResources s
    let s := if (s.sensor i).error = .none then decodeInto p.logic1 i s else s
    endRead i { s with active := none }

/-- The capture part of `EDGE`: store the delta, take the new reference, leave ARMED (R114, R120). -/
def captureEdge (cnt : Sample) (s : State) : State :=
  let s := pbWrite (pulseDelta cnt s.ref) s
  { s with ref := cnt, acq := if s.acq = .armed then .sampling else s.acq }

/-- `EDGE(cnt)` (R114, R115); stray when `ACTIVE` is none (R118). -/
def edge (p : Config.Params) (cnt : Sample) (s : State) : State :=
  match s.active with
  | none   => s
  | some _ =>
    let s := captureEdge cnt s
    if Config.nCapture ≤ s.pb.cur then finish p { s with acq := .complete } else s

/-- `TMO()` (R116); stray when `ACTIVE` is none (R118). -/
def timeout (p : Config.Params) (s : State) : State :=
  match s.active with
  | none   => s
  | some i => finish p (raise .timeout i { s with acq := .timedOut })

/-- The meaning of `EDGE cnt` (R114). -/
def execEdge (cnt : Sample) (s : State) : Host.Outcome State Fault Refusal :=
  admitted (admitCallback s) (edge Config.params cnt s)

/-- The meaning of `TMO` (R116). -/
def execTmo (s : State) : Host.Outcome State Fault Refusal :=
  admitted (admitCallback s) (timeout Config.params s)

end Sys2Proof.Machine
end

