-- ==== Sys2Proof/Machine/Polling.lean ====
section
/-! DEFINITION. Capture by the polling strategy: POLL_BEGIN, POLL, POLL_END (spec/42_polling_capture.md). -/

namespace Sys2Proof.Machine

/-- `POLL_BEGIN(i)` (R132). -/
def pollBegin (i : InstIx) (s : State) : State :=
  { s.emit [.lineDrv (s.sensor i).pin .inputNoPull] with
    hicnt := 0, iter := 0, pinst := some i, acq := .polling }

/-- `POLL_END()` (R137): TIMEOUT when too few samples were stored, then always DECODE. With `PINST` none, which no
reachable state with `ACQ = POLLING` has (R32), there is no instance to close and nothing happens (log 17). -/
def pollEnd (p : Config.Params) (s : State) : State :=
  match s.pinst with
  | none   => s
  | some i =>
    let s := if s.pb.cur < p.pollStop then { raise .timeout i s with acq := .timedOut } else { s with acq := .complete }
    let s := decodeInto p.logic1 i s
    endRead i { s with pinst := none }

/-- The capture part of one iteration: count a high level; on a falling level store the count (R134, R135). -/
def capturePoll (lvl : Bool) (s : State) : State :=
  let s :=
    if lvl then { s with hicnt := s.hicnt + 1 }
    else if 0 < s.hicnt.toNat then { pbWrite s.hicnt s with hicnt := 0 }
    else s
  { s with iter := s.iter + 1 }

/-- One iteration of the loop, and the test that ends it (R134, R136, R138). -/
def poll (p : Config.Params) (lvl : Bool) (s : State) : State :=
  let s := capturePoll lvl s
  if p.pollStop ≤ s.pb.cur ∨ s.iter = p.pollBudget then pollEnd p s else s

/-- The meaning of `POLL lvl` (R134). -/
def execPoll (lvl : Bool) (s : State) : Host.Outcome State Fault Refusal :=
  admitted (admitPoll s) (poll Config.params lvl s)

end Sys2Proof.Machine
end

