-- ==== Sys2Proof/Machine/HostOps.lean ====
section
/-! DEFINITION. The host operations that change the block: CFG, READ, RDW (spec/44_host_operations.md R170 to R176). -/

namespace Sys2Proof.Machine

/-- `CFG(i, pin, tmr)`: the byte registers keep what they hold (R170). -/
def configure (i : InstIx) (pin : Pin) (tmr : Bool) (s : State) : State :=
  s.setSensor i { s.sensor i with configured := true, pin := pin, hasTimer := tmr, inProgress := false, error := .none }

/-- `READ(i, tok, cnt0)`: in_progress, error, buffer, handshake, then the strategy (R171, R110, R130). -/
def startRead (p : Config.Params) (i : InstIx) (tok : Bool) (cnt0 : Sample) (s : State) : State :=
  let s := handshake i (pbReset (raise .none i (beginRead i s)))
  if (s.sensor i).hasTimer then arm p i tok cnt0 s else pollBegin i s

/-- `RDW(i, tok, cnt0)`: the step of READ, then the host waits while `in_progress[i] = 1` (R175, R88). -/
def startReadWait (p : Config.Params) (i : InstIx) (tok : Bool) (cnt0 : Sample) (s : State) : State :=
  let s := startRead p i tok cnt0 s
  { s with hostWait := if (s.sensor i).inProgress then some i else none }

/-- The meaning of `CFG i, pin, tmr` (R170). -/
def execCfg (i : InstIx) (pin : Pin) (tmr : Bool) (s : State) : Host.Outcome State Fault Refusal :=
  admitted (admitCfg i s) (configure i pin tmr s)

/-- The meaning of `READ i, tok, cnt0` (R171). -/
def execRead (i : InstIx) (tok : Bool) (cnt0 : Sample) (s : State) : Host.Outcome State Fault Refusal :=
  admitted (admitRead i s) (startRead Config.params i tok cnt0 s)

/-- The meaning of `RDW i, tok, cnt0` (R175). -/
def execRdw (i : InstIx) (tok : Bool) (cnt0 : Sample) (s : State) : Host.Outcome State Fault Refusal :=
  admitted (admitRead i s) (startReadWait Config.params i tok cnt0 s)

end Sys2Proof.Machine
end

