-- ==== Sys2Proof/Machine/Dispatch.lean ====
section
/-! DEFINITION. One arm per operation (spec/30_encoding.md R84). -/

namespace Sys2Proof.Machine

def exec (i : Instr) (s : State) : Host.Outcome State Fault Refusal :=
  match i with
  | .cfg k pin tmr => Sys2Proof.Machine.execCfg k pin tmr s
  | .read k tok cnt0 => Sys2Proof.Machine.execRead k tok cnt0 s
  | .edge cnt => Sys2Proof.Machine.execEdge cnt s
  | .tmo => Sys2Proof.Machine.execTmo s
  | .poll lvl => Sys2Proof.Machine.execPoll lvl s
  | .isok k => Sys2Proof.Machine.execIsok k s
  | .temp k => Sys2Proof.Machine.execTemp k s
  | .hum k => Sys2Proof.Machine.execHum k s
  | .rdw k tok cnt0 => Sys2Proof.Machine.execRdw k tok cnt0 s

end Sys2Proof.Machine
end

