-- ==== Sys2Proof/WellFormed.lean ====
section
/-! DEFINITION. When an operation and an event word are well formed (spec/30_encoding.md R82 to R86,
spec/00_scope.md R13). The table of match and mask is R84's own; the decoder of Decode.lean is written from the field
layout of R82 instead, so that the two can be compared. -/

namespace Sys2Proof

/-- An operation is well formed for `n` instances when the instance it names, if any, is one of them (R13). Every
other field is bounded by its type (R83). -/
def Instr.wellFormedFor (n : Nat) (i : Instr) : Bool :=
  match i.inst? with
  | none   => true
  | some k => decide (k.val < n)

/-- Well-formedness for the number of instances of this machine (log 7). -/
def Instr.wellFormed (i : Instr) : Bool := i.wellFormedFor Config.nInst

/-- One row of the match and mask table of R84. -/
structure OpRow where
  mnemonic : String
  pattern  : Word
  mask     : Word
  deriving DecidableEq, Repr

/-- The match and mask table of R84 (the same rows as spec/opcode_table.json). -/
def opTable : List OpRow :=
  [ ⟨"CFG",  0x00000000#32, 0xF0FFFE00#32⟩,
    ⟨"READ", 0x10000000#32, 0xF00000FE#32⟩,
    ⟨"EDGE", 0x20000000#32, 0xFFFF0000#32⟩,
    ⟨"TMO",  0x30000000#32, 0xFFFFFFFF#32⟩,
    ⟨"POLL", 0x40000000#32, 0xFFFFFFFE#32⟩,
    ⟨"ISOK", 0x50000000#32, 0xF0FFFFFF#32⟩,
    ⟨"TEMP", 0x60000000#32, 0xF0FFFFFF#32⟩,
    ⟨"HUM",  0x70000000#32, 0xF0FFFFFF#32⟩,
    ⟨"RDW",  0x80000000#32, 0xF00000FE#32⟩ ]

/-- A word spells the operation of a row when `w & mask = match` (R84). -/
def OpRow.spells (r : OpRow) (w : Word) : Bool := w &&& r.mask == r.pattern

/-- A word is well formed when some row of the table spells it; every other word is reserved or illegal (R85). -/
def wordWellFormed (w : Word) : Bool := opTable.any fun r => r.spells w

end Sys2Proof
end

