-- ==== Sys2Proof/Decode.lean ====
section
/-! DEFINITION. Decoding an event word by the field layout of spec/30_encoding.md R82 and R83, the encoder written
from the same layout, and the host's table word. -/

namespace Sys2Proof

/-- Why a word spells no operation (R85). -/
inductive BadWord where
  /-- `op` is 9 to 15 -/
  | reservedOp
  /-- a must-be-zero bit of the format is not zero -/
  | mustBeZero
  deriving DecidableEq, Repr

/-! ## The fields of R82 and R83 -/

/-- `op`, bits 31:28. -/
def opField (w : Word) : Nat := (w.extractLsb' 28 4).toNat
/-- `inst`, bits 27:24. -/
def instField (w : Word) : InstIx := (w.extractLsb' 24 4).toFin
/-- `pin`, bits 7:0 of format C. -/
def pinField (w : Word) : Pin := w.extractLsb' 0 8
/-- `tmr`, bit 8 of format C. -/
def tmrField (w : Word) : Bool := w.getLsbD 8
/-- `tok`, bit 0 of format R. -/
def tokField (w : Word) : Bool := w.getLsbD 0
/-- `cnt0`, bits 23:8 of format R. -/
def cnt0Field (w : Word) : Sample := w.extractLsb' 8 16
/-- `val`, bits 15:0 of format E. -/
def valField (w : Word) : Sample := w.extractLsb' 0 16

/-- Answer the operation when the must-be-zero bits `lo` up to `lo + len - 1` are zero (R82, R85). -/
def whenZero (w : Word) (lo len : Nat) (i : Instr) : Except BadWord Instr :=
  if w.extractLsb' lo len = 0#len then .ok i else .error .mustBeZero

/-- The operation a word spells, or why it spells none (R82 to R86). Total on words. -/
def decode (w : Word) : Except BadWord Instr :=
  match opField w with
  | 0 => whenZero w 9 15 (.cfg (instField w) (pinField w) (tmrField w))
  | 1 => whenZero w 1 7 (.read (instField w) (tokField w) (cnt0Field w))
  | 2 => whenZero w 16 12 (.edge (valField w))
  | 3 => whenZero w 0 28 .tmo
  | 4 => whenZero w 1 27 (.poll (w.getLsbD 0))
  | 5 => whenZero w 0 24 (.isok (instField w))
  | 6 => whenZero w 0 24 (.temp (instField w))
  | 7 => whenZero w 0 24 (.hum (instField w))
  | 8 => whenZero w 1 7 (.rdw (instField w) (tokField w) (cnt0Field w))
  | _ => .error .reservedOp

/-! ## The encoder, from the same layout -/

/-- Format C: op, inst, fifteen zeros, tmr, pin (R82). -/
def formatC (op : BitVec 4) (i : InstIx) (tmr : Bool) (pin : Pin) : Word :=
  op ++ (BitVec.ofFin i : BitVec 4) ++ 0#15 ++ BitVec.ofBool tmr ++ pin

/-- Format R: op, inst, cnt0, seven zeros, tok (R82). -/
def formatR (op : BitVec 4) (i : InstIx) (cnt0 : Sample) (tok : Bool) : Word :=
  op ++ (BitVec.ofFin i : BitVec 4) ++ cnt0 ++ 0#7 ++ BitVec.ofBool tok

/-- Format E: op, twelve zeros, val (R82). -/
def formatE (op : BitVec 4) (val : Sample) : Word := op ++ 0#12 ++ val

/-- Format A: op, inst, twenty-four zeros (R82). -/
def formatA (op : BitVec 4) (i : InstIx) : Word := op ++ (BitVec.ofFin i : BitVec 4) ++ 0#24

/-- The word of an operation (R82 to R84). -/
def encode : Instr → Word
  | .cfg i pin tmr   => formatC 0x0#4 i tmr pin
  | .read i tok cnt0 => formatR 0x1#4 i cnt0 tok
  | .edge cnt        => formatE 0x2#4 cnt
  | .tmo             => formatE 0x3#4 0#16
  | .poll lvl        => formatE 0x4#4 (0#15 ++ BitVec.ofBool lvl)
  | .isok i          => formatA 0x5#4 i
  | .temp i          => formatA 0x6#4 i
  | .hum i           => formatA 0x7#4 i
  | .rdw i tok cnt0  => formatR 0x8#4 i cnt0 tok

/-- The row of R84's table that spells an operation. -/
def Instr.row : Instr → OpRow
  | .cfg _ _ _  => ⟨"CFG",  0x00000000#32, 0xF0FFFE00#32⟩
  | .read _ _ _ => ⟨"READ", 0x10000000#32, 0xF00000FE#32⟩
  | .edge _     => ⟨"EDGE", 0x20000000#32, 0xFFFF0000#32⟩
  | .tmo        => ⟨"TMO",  0x30000000#32, 0xFFFFFFFF#32⟩
  | .poll _     => ⟨"POLL", 0x40000000#32, 0xFFFFFFFE#32⟩
  | .isok _     => ⟨"ISOK", 0x50000000#32, 0xF0FFFFFF#32⟩
  | .temp _     => ⟨"TEMP", 0x60000000#32, 0xF0FFFFFF#32⟩
  | .hum _      => ⟨"HUM",  0x70000000#32, 0xF0FFFFFF#32⟩
  | .rdw _ _ _  => ⟨"RDW",  0x80000000#32, 0xF00000FE#32⟩

/-- The shorthand `POLL lvl *n` of the syntax: `n` consecutive POLL words (R87). -/
def pollRun (lvl : Bool) (n : Nat) : List Word := List.replicate n (encode (.poll lvl))

/-! ## The host's table word -/

/-- An event word is one 32-bit number with no bytes in memory (R82, R86), so the table's numbering is the word
itself; bits at and above `nbits` are zero (log 21). -/
def tableWord (nbits w : Nat) : Word := BitVec.ofNat 32 (w % 2 ^ nbits)

/-- What the decoder reads from the word the table numbers `w`. -/
def decodeTableWord (nbits w : Nat) : Option Instr :=
  match decode (tableWord nbits w) with
  | .ok i    => some i
  | .error _ => none

end Sys2Proof
end

