-- ==== Sys2Proof/Machine/Fetch.lean ====
section
/-! DEFINITION. Taking the next event word from the list of words still to be issued (log 1), and going on after a
refused word (log 3). -/

namespace Sys2Proof.Machine

/-- The refusal of a word that spells no operation (R85, D26). -/
def badWordRefusal : BadWord → Refusal
  | .reservedOp => .reservedOp
  | .mustBeZero => .mustBeZero

/-- The state without its first event word, all else unchanged: what an operation is issued in, and where a run goes
on after a refused word ("state is unchanged", R15, R85, R172). -/
def dropWord (s : State) : State := { s with events := s.events.tail }

/-- The first event word, if the environment issues one. -/
def nextWord (s : State) : Option Word := s.events.head?

/-- Put a word where the next step takes it. -/
def putWord (w : Word) (s : State) : State := { s with events := w :: s.events }

end Sys2Proof.Machine
end

