-- ==== Sys2Proof/Machine/Step.lean ====
section
/-! DEFINITION. One step: the next event word of the total order (spec/20_memory.md R60) is decoded and its operation
runs as one atomic step. With no word to come the block does nothing (spec/70_reset_and_hazards.md R240). -/

namespace Sys2Proof.Machine

/-- One step of the block (R16, R60; log 1). -/
def step (s : State) : Host.Outcome State Fault Refusal :=
  match nextWord s with
  | none   => .next s
  | some w =>
    match decode w with
    | .ok i    => exec i (dropWord s)
    | .error e => .refused (badWordRefusal e)

/-- The host's placing of one instruction: it becomes the next event word (log 2, log 21). -/
def State.withFetchWord (s : State) (nbits w : Nat) : State := putWord (tableWord nbits w) s

/-- The state after one step, a refused word left behind with nothing else changed (R15; log 3). -/
def advance (s : State) : State :=
  match step s with
  | .next t    => t
  | .refused _ => dropWord s
  | .fault _   => s

end Sys2Proof.Machine
end

