-- ==== Sys2Proof/Safety.lean ====
section
/-! DEFINITION. What claims are stated in terms of: when an operation is admitted, the invariant of the reachable
states (spec/10_state.md R32), what the environment may present (spec/41_interrupt_capture.md R122, R123), and what a
host may rely on (spec/20_memory.md R63, spec/70_reset_and_hazards.md R250, R257). -/

namespace Sys2Proof.Machine

/-- The host is free to issue an operation: it is not inside the polling loop (R133) nor blocked in RDW (R175). -/
def State.HostFree (s : State) : Prop := s.acq ≠ .polling ∧ s.hostWait = none

/-- When an operation is admitted, in the words of R170, R172, R177, R114, R116, R134 and R175. -/
def Admits (s : State) : Instr → Prop
  | .cfg i _ _  => s.HostFree ∧ (s.sensor i).configured = false
  | .read i _ _ => s.HostFree ∧ (s.sensor i).configured = true ∧ (s.sensor i).inProgress = false ∧ s.active = none
  | .edge _     => s.acq ≠ .polling
  | .tmo        => s.acq ≠ .polling
  | .poll _     => s.acq = .polling
  | .isok i     => s.HostFree ∧ (s.sensor i).configured = true
  | .temp i     => s.HostFree ∧ (s.sensor i).configured = true
  | .hum i      => s.HostFree ∧ (s.sensor i).configured = true
  | .rdw i _ _  => s.HostFree ∧ (s.sensor i).configured = true ∧ (s.sensor i).inProgress = false ∧ s.active = none

/-- The invariant of the reachable states (R27, R32, R44 to R46, R55, R175, R200, R203, R250). -/
structure Inv (s : State) : Prop where
  /-- `ACQ` is ARMED or SAMPLING exactly when `ACTIVE` is an instance. -/
  active_iff : (s.acq = .armed ∨ s.acq = .sampling) ↔ s.active.isSome = true
  /-- `ACQ = POLLING` exactly when `PINST` is an instance. -/
  pinst_iff : s.acq = .polling ↔ s.pinst.isSome = true
  /-- The active instance has a read in progress and a timer, and fewer than 41 samples are stored. -/
  active_owner : ∀ i, s.active = some i →
    (s.sensor i).inProgress = true ∧ (s.sensor i).hasTimer = true ∧ s.pb.cur ≤ 40
  /-- The polled instance has a read in progress and no timer, and neither stop condition holds. -/
  pinst_owner : ∀ i, s.pinst = some i →
    (s.sensor i).inProgress = true ∧ (s.sensor i).hasTimer = false ∧
      s.pb.cur < Config.params.pollStop ∧ s.iter < Config.params.pollBudget ∧ s.hicnt.toNat ≤ s.iter
  /-- The timer and the edge registration are held exactly while an instance is active. -/
  timer_held : s.timerHeld = s.active.isSome
  irq_held : s.irqReg = s.active.isSome
  /-- ARMED means no sample is stored. -/
  armed_empty : s.acq = .armed → s.pb.cur = 0
  /-- A read in progress is that of the active or the polled instance. -/
  progress_owner : ∀ i, (s.sensor i).inProgress = true → s.active = some i ∨ s.pinst = some i
  /-- A read in progress is of a configured instance and has recorded no error. -/
  progress_clean : ∀ i, (s.sensor i).inProgress = true →
    (s.sensor i).configured = true ∧ (s.sensor i).error = .none
  /-- CONFIG is never held. -/
  no_config : ∀ i, (s.sensor i).error ≠ .config
  /-- Exactly the entries below the cursor are written. -/
  buffer_wf : s.pb.wf
  /-- Entry 41 is never written. -/
  cur_le : s.pb.cur ≤ Config.nCapture
  /-- The host waits for a read that is in progress. -/
  wait_progress : ∀ i, s.hostWait = some i → (s.sensor i).inProgress = true
  /-- The timer and the edge registration are released equally often. -/
  released_equal : s.relT = s.relG

/-- What the environment presents (R122): counter values below the compare value that do not decrease within one armed
acquisition. No rule tests it (log 15). -/
def EnvAllows (p : Config.Params) (s : State) : Instr → Prop
  | .cfg _ _ _     => True
  | .read _ _ cnt0 => cnt0.toNat < p.timeoutTicks
  | .edge cnt      => s.active.isSome = true → s.ref.toNat ≤ cnt.toNat ∧ cnt.toNat < p.timeoutTicks
  | .tmo           => True
  | .poll _        => True
  | .isok _        => True
  | .temp _        => True
  | .hum _         => True
  | .rdw _ _ cnt0  => cnt0.toNat < p.timeoutTicks

/-- A read of `i` is over (R183), so the accessors of `i` are specified (R180). -/
def State.ReadOver (s : State) (i : InstIx) : Prop := (s.sensor i).inProgress = false

/-- A host may trust the values of `i`: the read is over and no error is recorded (R63, R250, R257). -/
def State.Trusted (s : State) (i : InstIx) : Prop := s.ReadOver i ∧ (s.sensor i).error = .none

/-- Byte slot `n` of a frame: humidity high and low, temperature high and low, checksum (R70). -/
def Frame.slot (f : Frame) : Nat → Byte
  | 0 => f.h0
  | 1 => f.h1
  | 2 => f.t0
  | 3 => f.t1
  | _ => f.chk

/-- Frame bit `n` in arrival order: bit `7 - n mod 8` of byte slot `n div 8` (R70). -/
def Frame.bit (f : Frame) (n : Nat) : Bool := (f.slot (n / 8)).getLsbD (7 - n % 8)

end Sys2Proof.Machine
end

