-- ==== Sys2Proof/Certificates/Slice0/Obligations.lean ====
section
/-! DEFINITION. The statements of this model for the provers. Each docstring names the rule of spec/ it formalises, and
says so where it rests on a choice of the model's (a row of notes/assumptions/). -/

open Sys2Proof Sys2Proof.Machine

/-! ## Encoding -/

/-- Every operation is well formed and is what its own word decodes to (30_encoding.md section 4). -/
def Obligations.DecodeOfEncodeIsIdentity : Prop :=
  ∀ i : Instr, i.wellFormed = true ∧ decode (encode i) = .ok i

/-- A word that decodes is the word of the operation it decodes to: no bit of a word is ignored (30_encoding.md
section 4). -/
def Obligations.EncodeOfDecodeIsIdentity : Prop :=
  ∀ (w : Word) (i : Instr), decode w = .ok i → encode i = w

/-- Match, mask, op code and issuer of the operation table (30_encoding.md section 4): the decoder, written from the
field layout, accepts exactly the words that the match and mask table spells and gives the operation of the row; no
two rows spell one word; op codes 9 to 15 are reserved; and each operation has the op code and the issuer of its row.
The operands that fill the free bits are fixed by OperandsAreTheirFields. -/
def Obligations.DecoderAgreesWithMatchMaskTable : Prop :=
  (∀ w : Word, (∃ i, decode w = .ok i) ↔ wordWellFormed w = true) ∧
  (∀ (w : Word) (i : Instr), decode w = .ok i → i.row ∈ opTable ∧ i.row.mnemonic = i.mnemonic ∧ i.row.spells w = true) ∧
  (∀ (w : Word) (r r' : OpRow), r ∈ opTable → r' ∈ opTable → r.spells w = true → r'.spells w = true → r = r') ∧
  (∀ w : Word, 9 ≤ opField w → decode w = .error .reservedOp) ∧
  (∀ (w : Word) (i : Instr), decode w = .ok i → (opField w, i.mnemonic, i.agent) ∈
    ([(0, "CFG", .host), (1, "READ", .host), (2, "EDGE", .line), (3, "TMO", .timer), (4, "POLL", .line),
      (5, "ISOK", .host), (6, "TEMP", .host), (7, "HUM", .host), (8, "RDW", .host)] : List (Nat × String × Agent)))

/-- Which bits carry which operand, and the whole word of every operation (the free bits and the words that
30_encoding.md section 4, 41_interrupt_capture.md sections 2 and 3, 42_polling_capture.md and 44_host_operations.md
write out): each operand of a decoded word is its field, and the word of each operation is the number its rule gives. -/
def Obligations.OperandsAreTheirFields : Prop :=
  (∀ (w : Word) (op : Instr), decode w = .ok op →
    match op with
    | .cfg i pin tmr   => i.val = w.toNat / 2 ^ 24 % 16 ∧ pin.toNat = w.toNat % 2 ^ 8 ∧ tmr.toNat = w.toNat / 2 ^ 8 % 2
    | .read i tok cnt0 => i.val = w.toNat / 2 ^ 24 % 16 ∧ cnt0.toNat = w.toNat / 2 ^ 8 % 2 ^ 16 ∧ tok.toNat = w.toNat % 2
    | .edge cnt        => cnt.toNat = w.toNat % 2 ^ 16
    | .tmo             => w.toNat = 0x30000000
    | .poll lvl        => lvl.toNat = w.toNat % 2
    | .isok i          => i.val = w.toNat / 2 ^ 24 % 16
    | .temp i          => i.val = w.toNat / 2 ^ 24 % 16
    | .hum i           => i.val = w.toNat / 2 ^ 24 % 16
    | .rdw i tok cnt0  => i.val = w.toNat / 2 ^ 24 % 16 ∧ cnt0.toNat = w.toNat / 2 ^ 8 % 2 ^ 16 ∧ tok.toNat = w.toNat % 2)
  ∧
  (∀ op : Instr, (encode op).toNat =
    match op with
    | .cfg i pin tmr   => i.val * 2 ^ 24 + tmr.toNat * 2 ^ 8 + pin.toNat
    | .read i tok cnt0 => 0x10000000 + i.val * 2 ^ 24 + cnt0.toNat * 2 ^ 8 + tok.toNat
    | .edge cnt        => 0x20000000 + cnt.toNat
    | .tmo             => 0x30000000
    | .poll lvl        => 0x40000000 + lvl.toNat
    | .isok i          => 0x50000000 + i.val * 2 ^ 24
    | .temp i          => 0x60000000 + i.val * 2 ^ 24
    | .hum i           => 0x70000000 + i.val * 2 ^ 24
    | .rdw i tok cnt0  => 0x80000000 + i.val * 2 ^ 24 + cnt0.toNat * 2 ^ 8 + tok.toNat)

/-- Words written out in the spec (95_test_vectors.md V-H1, V-H2, V-H6, V-H7, P1) decode to what they stand for. -/
def Obligations.WordsOfTheSpecDecode : Prop :=
  decode 0x00000103#32 = .ok (.cfg 0 3 true) ∧ decode 0x0F0000FF#32 = .ok (.cfg 15 255 false) ∧
  decode 0x10006401#32 = .ok (.read 0 true 100) ∧ decode 0x12FFFF01#32 = .ok (.read 2 true 0xFFFF) ∧
  decode 0x2000000C#32 = .ok (.edge 12) ∧ decode 0x30000000#32 = .ok .tmo ∧
  decode 0x40000001#32 = .ok (.poll true) ∧ decode 0x51000000#32 = .ok (.isok 1) ∧
  decode 0x60000000#32 = .ok (.temp 0) ∧ decode 0x71000000#32 = .ok (.hum 1) ∧
  decode 0x81000000#32 = .ok (.rdw 1 false 0) ∧
  decode 0x90000000#32 = .error .reservedOp ∧ decode 0x20010000#32 = .error .mustBeZero

/-- A word of the reserved op codes 9 to 15, or with a must-be-zero bit set, is refused, and the run goes on with
nothing changed but the word gone. That a refusal is the third outcome is the spec's decision D26; how a run goes on
after it is the model's (log 3). The names of the refusals are the model's (log 12). -/
def Obligations.IllegalWordIsRefusedAndChangesNothing : Prop :=
  ∀ (s : State) (w : Word) (rest : List Word), s.events = w :: rest → wordWellFormed w = false →
    (9 ≤ opField w → step s = .refused .reservedOp) ∧ (opField w < 9 → step s = .refused .mustBeZero) ∧
    advance s = { s with events := rest }

/-! ## The step -/

/-- A step takes the next event word and runs the operation it decodes to, in the state without the word; with no word
to come nothing happens (70_reset_and_hazards.md R240). The list of words is the model's own (log 1). -/
def Obligations.StepRunsTheDecodedOperation : Prop :=
  (∀ (s : State) (w : Word) (rest : List Word) (i : Instr), s.events = w :: rest → decode w = .ok i →
    step s = exec i { s with events := rest }) ∧
  (∀ s : State, s.events = [] → step s = .next s)

/-- The reset values that the spec gives or decides (70_reset_and_hazards.md section 1, D21): nothing about the
registers it calls unspecified. -/
def Obligations.ResetStateIsAsSpecified : Prop :=
  (∀ i : InstIx, (State.reset.sensor i).configured = false ∧ (State.reset.sensor i).inProgress = false ∧
    (State.reset.sensor i).error = .none) ∧
  (∀ k : Fin 42, State.reset.pb.entry[k] = none) ∧ State.reset.pb.cur = 0 ∧ State.reset.acq = .idle ∧
  State.reset.active = none ∧ State.reset.pinst = none ∧ State.reset.timerHeld = false ∧
  State.reset.irqReg = false ∧ State.reset.relT = 0 ∧ State.reset.relG = 0

/-- The three outcomes of 00_scope.md R16 and who may do what when: an operation is taken exactly when the spec admits
it, and refused otherwise; nothing faults. That a host blocked in RDW has its operations refused is the model's
reading of R175 (log 9). -/
def Obligations.OperationIsTakenExactlyWhenAdmitted : Prop :=
  ∀ (i : Instr) (s : State),
    (Admits s i → ∃ t, exec i s = .next t) ∧ (¬ Admits s i → ∃ r, exec i s = .refused r)

/-- While the polling loop runs, every operation but POLL is refused (42_polling_capture.md section 1, decision D16).
The spec names no reason for a refusal: that this one is named, also where the host is blocked or the instance is not
configured, is the model's order of reasons (log 12, DESIGN CHOICE). -/
def Obligations.PollingLoopAdmitsOnlyPoll : Prop :=
  ∀ (i : Instr) (s : State), s.acq = .polling → (∀ lvl, i ≠ .poll lvl) → exec i s = .refused .pollingLoopRuns

/-- Whether an operation is admitted never depends on the environment's answers `tok`, `cnt0`, `cnt`, `lvl`
(60_exceptions.md section 5). -/
def Obligations.AdmissionIgnoresTheEnvironmentsAnswers : Prop :=
  ∀ (s : State) (i : InstIx) (tok tok' lvl lvl' : Bool) (c c' : Sample),
    ((∃ t, exec (.read i tok c) s = .next t) ↔ ∃ t, exec (.read i tok' c') s = .next t) ∧
    ((∃ t, exec (.rdw i tok c) s = .next t) ↔ ∃ t, exec (.rdw i tok' c') s = .next t) ∧
    ((∃ t, exec (.edge c) s = .next t) ↔ ∃ t, exec (.edge c') s = .next t) ∧
    ((∃ t, exec (.poll lvl) s = .next t) ↔ ∃ t, exec (.poll lvl') s = .next t)

/-! ## CFG -/

/-- CFG of an instance not yet configured writes its five fields, leaves its byte registers and everything else, and
is refused on a configured one or in the polling loop; its word is R170's. That the host is not blocked in RDW is a
premise (log 9). The names of the refusals, and that the polling loop is named first also for an instance already
configured, are the model's (log 12, DESIGN CHOICE). -/
def Obligations.ConfigureWritesOneInstance : Prop :=
  ∀ (i : InstIx) (pin : Pin) (tmr : Bool) (s : State),
    (s.acq = .polling → exec (.cfg i pin tmr) s = .refused .pollingLoopRuns) ∧
    (s.acq ≠ .polling → s.hostWait = none →
      ((s.sensor i).configured = true → exec (.cfg i pin tmr) s = .refused .alreadyConfigured) ∧
      ((s.sensor i).configured = false → exec (.cfg i pin tmr) s = .next (s.setSensor i
        { configured := true, pin := pin, hasTimer := tmr, inProgress := false, error := .none,
          bytes := (s.sensor i).bytes }))) ∧
    (encode (.cfg i pin tmr)).toNat = i.val * 2 ^ 24 + tmr.toNat * 2 ^ 8 + pin.toNat

/-! ## READ and RDW -/

/-- READ with a timer that is acquired: the flags, the empty buffer, the handshake, the armed timer and edge callback,
the reference; RDW does the same and the host waits (44_host_operations.md sections 2 and 3, 41_interrupt_capture.md
section 1). The host's wait as a field, and that admission asks the host not to be in it, are the model's (log 9), and
the trace is the model's record (log 11). -/
def Obligations.ReadWithTimerArms : Prop :=
  ∀ (i : InstIx) (cnt0 : Sample) (s : State), Admits s (.read i true cnt0) → (s.sensor i).hasTimer = true →
    let t : State :=
      { s.setSensor i { s.sensor i with inProgress := true, error := .none } with
        pb := { entry := Vector.replicate 42 none, cur := 0 }, acq := .armed, active := some i, ref := cnt0
        timerHeld := true, irqReg := true
        out := s.out ++
          [.lineDrv (s.sensor i).pin .output, .lineDrv (s.sensor i).pin (.level true),
           .lineDrv (s.sensor i).pin (.level false), .lineDrv (s.sensor i).pin (.level true),
           .tmrCtl (.init 250000 16), .tmrCtl (.compare Config.params.timeoutTicks), .tmrCtl .enable,
           .irqCtl (.register (s.sensor i).pin), .irqCtl .enable] }
    exec (.read i true cnt0) s = .next t ∧ exec (.rdw i true cnt0) s = .next { t with hostWait := some i }

/-- READ whose timer is not acquired: NO_TIMER is recorded, the read is over, nothing is acquired, the byte registers
stay, the handshake has been driven; RDW does the same and does not wait (41_interrupt_capture.md section 1, the
spec's decision D12). The host's wait as a field, and that admission asks the host not to be in it, are the model's
(log 9), and the trace is the model's record (log 11). -/
def Obligations.ReadWithoutAcquiredTimerAborts : Prop :=
  ∀ (i : InstIx) (cnt0 : Sample) (s : State), Admits s (.read i false cnt0) → (s.sensor i).hasTimer = true →
    let t : State :=
      { s.setSensor i { s.sensor i with inProgress := false, error := .noTimer } with
        pb := { entry := Vector.replicate 42 none, cur := 0 }, acq := .idle
        out := s.out ++
          [.lineDrv (s.sensor i).pin .output, .lineDrv (s.sensor i).pin (.level true),
           .lineDrv (s.sensor i).pin (.level false), .lineDrv (s.sensor i).pin (.level true)] }
    exec (.read i false cnt0) s = .next t ∧ exec (.rdw i false cnt0) s = .next t

/-- READ of an instance without a timer: the polling loop starts, whatever `tok` and `cnt0` are; RDW does the same and
the host waits (42_polling_capture.md, POLL_BEGIN). The host's wait as a field, and that admission asks the host not
to be in it, are the model's (log 9), and the trace is the model's record (log 11). -/
def Obligations.ReadWithoutTimerStartsPolling : Prop :=
  ∀ (i : InstIx) (tok : Bool) (cnt0 : Sample) (s : State), Admits s (.read i tok cnt0) →
    (s.sensor i).hasTimer = false →
    let t : State :=
      { s.setSensor i { s.sensor i with inProgress := true, error := .none } with
        pb := { entry := Vector.replicate 42 none, cur := 0 }, acq := .polling, pinst := some i, hicnt := 0, iter := 0
        out := s.out ++
          [.lineDrv (s.sensor i).pin .output, .lineDrv (s.sensor i).pin (.level true),
           .lineDrv (s.sensor i).pin (.level false), .lineDrv (s.sensor i).pin (.level true),
           .lineDrv (s.sensor i).pin .inputNoPull] }
    exec (.read i tok cnt0) s = .next t ∧ exec (.rdw i tok cnt0) s = .next { t with hostWait := some i }

/-- RDW is the step of READ followed by the host's wait: admitted and refused alike, and the same state but for the
wait (44_host_operations.md section 3). The wait as a field is the model's (log 9). -/
def Obligations.BlockingReadIsReadThenWait : Prop :=
  ∀ (i : InstIx) (tok : Bool) (cnt0 : Sample) (s : State),
    (Admits s (.rdw i tok cnt0) → ∃ u, exec (.read i tok cnt0) s = .next u ∧
      exec (.rdw i tok cnt0) s =
        .next { u with hostWait := if (u.sensor i).inProgress = true then some i else none }) ∧
    (∀ r, exec (.rdw i tok cnt0) s = .refused r ↔ exec (.read i tok cnt0) s = .refused r)

/-- Starting a second read while an interrupt-driven one is outstanding is refused and leaves the state as it is, the
buffer and `ACTIVE` included: a run goes on with the word gone (44_host_operations.md section 2, the spec's decision
D16; log 3). The words to come are the model's list (log 1). -/
def Obligations.SecondReadCannotDisturbTheFirst : Prop :=
  ∀ (s : State) (rest : List Word) (i : InstIx) (tok : Bool) (cnt0 : Sample), s.active.isSome = true →
    (s.events = encode (.read i tok cnt0) :: rest ∨ s.events = encode (.rdw i tok cnt0) :: rest) →
    (∃ r, step s = .refused r) ∧ advance s = { s with events := rest }

/-! ## EDGE and TMO -/

/-- EDGE before the 41st sample: the delta modulo 2^16 is stored at the cursor, the reference follows, ARMED becomes
SAMPLING, and nothing else changes (41_interrupt_capture.md section 2). -/
def Obligations.EdgeStoresTheDelta : Prop :=
  ∀ (cnt : Sample) (s : State) (i : InstIx), s.acq ≠ .polling → s.active = some i → s.pb.cur < 40 →
    exec (.edge cnt) s = .next { s with
      pb := { entry := s.pb.entry.setIfInBounds s.pb.cur (some (cnt - s.ref)), cur := s.pb.cur + 1 }
      ref := cnt, acq := if s.acq = .armed then .sampling else s.acq }

/-- The EDGE that stores index 40 completes the read: resources released and counted, the buffer decoded if no error
is recorded, CHECKSUM recorded on a mismatch, `ACTIVE` and `in_progress` cleared, a waiting host freed
(41_interrupt_capture.md sections 2 and 4). That the host's wait is a field, freed in the step that ends the read, is
the model's (log 9), and the trace is the model's record (log 11). -/
def Obligations.FortyFirstEdgeCompletesTheRead : Prop :=
  ∀ (cnt : Sample) (s : State) (i : InstIx), s.acq ≠ .polling → s.active = some i → s.pb.cur = 40 →
    let b : PulseBuffer := { entry := s.pb.entry.setIfInBounds 40 (some (cnt - s.ref)), cur := 41 }
    let f := reassemble Config.logic1 b
    let x := s.sensor i
    exec (.edge cnt) s = .next
      { s.setSensor i { x with
          inProgress := false
          bytes := if x.error = .none then f else x.bytes
          error := if x.error = .none ∧ f.sum ≠ f.chk then .checksum else x.error } with
        pb := b, ref := cnt, acq := .complete, active := none, timerHeld := false, irqReg := false
        relT := s.relT + 1, relG := s.relG + 1
        out := s.out ++ [.tmrCtl .disable, .tmrCtl .release, .irqCtl .disable, .irqCtl .release]
        hostWait := if s.hostWait = some i then none else s.hostWait }

/-- TMO (41_interrupt_capture.md section 3, 44_host_operations.md section 3): with an active instance it records TIMEOUT,
releases the resources, does not decode, and ends the read; with none it is a no-op; in the polling loop it is
refused; its word is 0x30000000, the timer issues it, and it runs in the interrupt context. That fewer than 41 samples
are stored then needs no test: the invariant says it. That the host's wait is a field, freed in the step that ends the
read, is the model's (log 9), and the trace is the model's record (log 11); that its refusal names the polling loop is
log 12. -/
def Obligations.TimeoutEndsTheReadWithoutDecoding : Prop :=
  encode .tmo = 0x30000000#32 ∧ Instr.tmo.agent = .timer ∧ Instr.tmo.context = .interrupt ∧
  (∀ (s : State) (i : InstIx), Inv s → s.active = some i → s.pb.cur ≤ 40) ∧
  ∀ s : State,
    (s.acq = .polling → exec .tmo s = .refused .pollingLoopRuns) ∧
    (s.acq ≠ .polling → s.active = none → exec .tmo s = .next s) ∧
    (∀ i, s.acq ≠ .polling → s.active = some i → exec .tmo s = .next
      { s.setSensor i { s.sensor i with inProgress := false, error := .timeout } with
        acq := .timedOut, active := none, timerHeld := false, irqReg := false
        relT := s.relT + 1, relG := s.relG + 1
        out := s.out ++ [.tmrCtl .disable, .tmrCtl .release, .irqCtl .disable, .irqCtl .release]
        hostWait := if s.hostWait = some i then none else s.hostWait })

/-- A stray callback changes nothing at all (41_interrupt_capture.md section 4). -/
def Obligations.StrayCallbacksChangeNothing : Prop :=
  ∀ (cnt : Sample) (s : State), s.acq ≠ .polling → s.active = none →
    exec (.edge cnt) s = .next s ∧ exec .tmo s = .next s

/-- R119: of the 41st edge and the timeout, whichever comes first tears down, the other is a no-op, and the resources
are released once in both orders. -/
def Obligations.EdgeAndTimeoutRaceTearsDownOnce : Prop :=
  ∀ (cnt : Sample) (s : State) (i : InstIx), s.acq ≠ .polling → s.active = some i → s.pb.cur = 40 →
    (s.sensor i).error = .none →
    (∃ t, exec (.edge cnt) s = .next t ∧ exec .tmo t = .next t ∧ t.acq = .complete ∧
      (t.sensor i).bytes = reassemble Config.logic1 t.pb ∧ t.pb.cur = 41 ∧ (t.sensor i).error ≠ .timeout ∧
      t.relT = s.relT + 1 ∧ t.relG = s.relG + 1) ∧
    (∃ u, exec .tmo s = .next u ∧ exec (.edge cnt) u = .next u ∧ u.acq = .timedOut ∧
      (u.sensor i).bytes = (s.sensor i).bytes ∧ u.pb = s.pb ∧ (u.sensor i).error = .timeout ∧
      u.relT = s.relT + 1 ∧ u.relG = s.relG + 1)

/-- When the environment keeps to the counter values it may present, the delta never wraps and stays below the compare
value (41_interrupt_capture.md sections 2 and 5, the spec's decisions D17 and D19; log 15). -/
def Obligations.CounterDeltaNeverWrapsUnderTheEnvironment : Prop :=
  ∀ (cnt : Sample) (s t : State) (i : InstIx), s.active = some i → s.pb.cur < 42 →
    EnvAllows Config.params s (.edge cnt) → exec (.edge cnt) s = .next t →
    ∃ v : Sample, t.pb.entry[s.pb.cur]? = some (some v) ∧ v.toNat = cnt.toNat - s.ref.toNat ∧
      v.toNat < Config.params.timeoutTicks

/-! ## POLL -/

/-- One iteration that does not end the loop: a high level is counted, a low level with nothing counted only counts
the iteration, the first low level after high ones stores the count (42_polling_capture.md, POLL). -/
def Obligations.PollIterationCountsOrStores : Prop :=
  ∀ s : State, s.acq = .polling → s.iter + 1 ≠ 10000 →
    (s.pb.cur < 41 → exec (.poll true) s = .next { s with hicnt := s.hicnt + 1, iter := s.iter + 1 }) ∧
    (s.pb.cur < 41 → s.hicnt = 0 → exec (.poll false) s = .next { s with iter := s.iter + 1 }) ∧
    (s.pb.cur < 40 → s.hicnt ≠ 0 → exec (.poll false) s = .next { s with
      pb := { entry := s.pb.entry.setIfInBounds s.pb.cur (some s.hicnt), cur := s.pb.cur + 1 }
      hicnt := 0, iter := s.iter + 1 })

/-- The iteration that stores the 41st sample ends the loop without a timeout, even if it is the last of the budget
(42_polling_capture.md, POLL_END and the budget; POLL_STOP = 41 is the spec's decision D4). That the host's wait is a
field, freed in the step that ends the read, is the model's (log 9). -/
def Obligations.FortyFirstPulseCompletesThePollingRead : Prop :=
  ∀ (s : State) (i : InstIx), s.acq = .polling → s.pinst = some i → s.pb.cur = 40 → s.hicnt ≠ 0 →
    let b : PulseBuffer := { entry := s.pb.entry.setIfInBounds 40 (some s.hicnt), cur := 41 }
    let f := reassemble Config.logic1 b
    let x := s.sensor i
    exec (.poll false) s = .next
      { s.setSensor i { x with
          inProgress := false, bytes := f
          error := if f.sum ≠ f.chk ∧ x.error = .none then .checksum else x.error } with
        pb := b, hicnt := 0, iter := s.iter + 1, acq := .complete, pinst := none
        hostWait := if s.hostWait = some i then none else s.hostWait }

/-- The last iteration of the budget, with fewer than 41 samples stored after it: TIMEOUT is recorded and stands, and
the short buffer is decoded all the same (42_polling_capture.md, POLL_END and the budget). That the host's wait is a
field, freed in the step that ends the read, is the model's (log 9). -/
def Obligations.ExhaustedBudgetTimesOutAndDecodes : Prop :=
  ∀ (s : State) (i : InstIx) (lvl : Bool), s.acq = .polling → s.pinst = some i → s.iter = 9999 → s.pb.cur ≤ 40 →
    (s.pb.cur = 40 → lvl = true ∨ s.hicnt = 0) →
    let b : PulseBuffer :=
      if lvl = false ∧ s.hicnt ≠ 0 then
        { entry := s.pb.entry.setIfInBounds s.pb.cur (some s.hicnt), cur := s.pb.cur + 1 }
      else s.pb
    exec (.poll lvl) s = .next
      { s.setSensor i { s.sensor i with
          inProgress := false, bytes := reassemble Config.logic1 b, error := .timeout } with
        pb := b, hicnt := if lvl = true then s.hicnt + 1 else 0, iter := 10000, acq := .timedOut, pinst := none
        hostWait := if s.hostWait = some i then none else s.hostWait }

/-- In a reachable state a sample the polling loop stores is 1 to 9999, so the count never overflows
(42_polling_capture.md R135, an inference of the spec's). -/
def Obligations.PolledSampleIsBetweenOneAnd9999 : Prop :=
  ∀ (s t : State) (lvl : Bool), Inv s → exec (.poll lvl) s = .next t → t.pb.cur = s.pb.cur + 1 →
    ∃ v : Sample, t.pb.entry[s.pb.cur]? = some (some v) ∧ 1 ≤ v.toNat ∧ v.toNat ≤ 9999

/-- From any state of the polling loop that the invariant allows, whatever the levels are, the loop ends within the
rest of the budget, and the read is over then (42_polling_capture.md, the budget). That no host waits for it then is
the model's wait (log 9), and the levels arrive as event words (log 1). -/
def Obligations.PollingLoopEndsWithinItsBudget : Prop :=
  ∀ (s : State) (i : InstIx) (levels : List Bool), Inv s → s.pinst = some i →
    levels.length = Config.params.pollBudget - s.iter →
    ∃ (n : Nat) (t : State), n ≤ levels.length ∧
      Sys2Proof.core.run n { s with events := levels.map fun l => encode (.poll l) } = .next t ∧
      t.acq ≠ .polling ∧ t.pinst = none ∧ (t.sensor i).inProgress = false ∧ t.hostWait ≠ some i

/-- A model with the source's literal POLL_STOP = 40 takes the last checksum bit from an unwritten entry: it is 0, and
a frame whose data bytes sum to an odd number ends in CHECKSUM (42_polling_capture.md R139, an inference of the
spec's). -/
def Obligations.StoppingAtFortyLosesTheLastBit : Prop :=
  (∀ (l : Sample) (b : PulseBuffer), b.cur = 40 → (reassemble l b).bit 39 = false) ∧
  (∀ (p : Config.Params) (s : State) (i : InstIx), p.pollStop = 40 → s.pinst = some i → s.pb.cur = 40 →
    (s.sensor i).error = .none → (reassemble p.logic1 s.pb).sum.getLsbD 0 = true →
    ((pollEnd p s).sensor i).error = .checksum ∧ (pollEnd p s).acq = .complete)

/-! ## The decoder -/

/-- R72: a written sample is a 1 exactly when it exceeds the threshold, unsigned and strict; an entry at or beyond the
cursor, or empty, is a 0. -/
def Obligations.SampleIsOneExactlyAboveThreshold : Prop :=
  ∀ (l : Sample) (b : PulseBuffer) (k : Fin 42),
    (∀ v : Sample, k.val < b.cur → b.entry[k] = some v → (classify l b k.val = true ↔ l.toNat < v.toNat)) ∧
    (b.entry[k] = none → classify l b k.val = false) ∧ (b.cur ≤ k.val → classify l b k.val = false)

/-- The frame in the buffer (30_encoding.md section 1): frame bit `n` is classified from `PB[n + 1]` and lands in byte
slot `n div 8` at bit position `7 - (n mod 8)`; in other words bit `b` of slot `s` comes from `PB[1 + 8*s + (7 - b)]`.
-/
def Obligations.FrameBitsComeFromTheirSamples : Prop :=
  ∀ (l : Sample) (buf : PulseBuffer),
    (∀ n, n < 40 → ((reassemble l buf).slot (n / 8)).getLsbD (7 - n % 8) = classify l buf (n + 1)) ∧
    (∀ s b, s < 5 → b < 8 → ((reassemble l buf).slot s).getLsbD b = classify l buf (1 + 8 * s + (7 - b)))

/-- The property the decoder must meet (43_bit_decoder.md, an inference of the spec's): of any 41 stored samples that
spell a frame whose checksum is right, DECODE reproduces exactly the bytes and leaves the error at NONE. -/
def Obligations.DecoderReproducesEveryValidFrame : Prop :=
  ∀ (l : Sample) (s : State) (i : InstIx) (f : Frame), 41 ≤ s.pb.cur → (s.sensor i).error = .none →
    (∀ n, n < 40 → ∃ v : Sample, s.pb.entry[n + 1]? = some (some v) ∧ (l.toNat < v.toNat ↔ f.bit n = true)) →
    f.chk = f.sum →
    ((decodeInto l i s).sensor i).bytes = f ∧ ((decodeInto l i s).sensor i).error = .none

/-- R154, R155: DECODE writes all five byte registers of its instance, always, records CHECKSUM exactly when the sum
of the four data bytes differs from the checksum byte and no error is recorded, and changes nothing else. -/
def Obligations.DecodeWritesBytesAndChecksumErrorOnly : Prop :=
  ∀ (l : Sample) (s : State) (i : InstIx),
    let b := reassemble l s.pb
    decodeInto l i s = s.setSensor i { s.sensor i with
      bytes := b
      error := if b.h0 + b.h1 + b.t0 + b.t1 ≠ b.chk ∧ (s.sensor i).error = .none then .checksum
               else (s.sensor i).error }

/-- The decoder reads `PB[1]` to `PB[40]` below the cursor and nothing else: `PB[0]`, `PB[41]` and what lies at or
beyond the cursor never matter (43_bit_decoder.md R151 and R158, 20_memory.md R52). -/
def Obligations.DecoderReadsOnlyTheDataSamples : Prop :=
  ∀ (l : Sample) (a b : PulseBuffer), a.cur = b.cur →
    (∀ k : Fin 42, 1 ≤ k.val → k.val ≤ 40 → k.val < a.cur → a.entry[k] = b.entry[k]) →
    reassemble l a = reassemble l b

/-- R75: the expected checksum is the sum of the four data bytes as received modulo 256, the temperature byte with its
bit 7 (which therefore changes it), and DECODE compares it with the transmitted checksum byte. -/
def Obligations.ExpectedChecksumIsSumModulo256 : Prop :=
  (∀ f : Frame, f.sum.toNat = (f.h0.toNat + f.h1.toNat + f.t0.toNat + f.t1.toNat) % 256 ∧
    ({ f with t0 := f.t0 ^^^ 0x80#8 } : Frame).sum ≠ f.sum) ∧
  (∀ (l : Sample) (s : State) (i : InstIx), (s.sensor i).error = .none →
    (((decodeInto l i s).sensor i).error = .checksum ↔
      (((decodeInto l i s).sensor i).bytes.h0.toNat + ((decodeInto l i s).sensor i).bytes.h1.toNat +
        ((decodeInto l i s).sensor i).bytes.t0.toNat + ((decodeInto l i s).sensor i).bytes.t1.toNat) % 256 ≠
      ((decodeInto l i s).sensor i).bytes.chk.toNat))

/-! ## The accessors -/

/-- R73, R74: humidity is `{H0, H1}`, temperature is `{T0[6:0], T1}`, unsigned, in these ranges and with no range
check; bit 7 of `T0` does not reach the temperature, and does change the checksum. -/
def Obligations.TenthsAreAssembledFromTheBytes : Prop :=
  ∀ f : Frame,
    humTenths f = f.h0 ++ f.h1 ∧ (humTenths f).toNat = f.h0.toNat * 256 + f.h1.toNat ∧
    tempTenths f = f.t0.extractLsb' 0 7 ++ f.t1 ∧ (tempTenths f).toNat = (f.t0.toNat % 128) * 256 + f.t1.toNat ∧
    (humTenths f).toNat ≤ 65535 ∧ (tempTenths f).toNat ≤ 32767 ∧
    tempTenths { f with t0 := f.t0 ^^^ 0x80#8 } = tempTenths f ∧ ({ f with t0 := f.t0 ^^^ 0x80#8 } : Frame).sum ≠ f.sum

/-- With no read of `i` in progress the accessors return the functions of the registers, whatever the error is, and
change nothing but the output trace (44_host_operations.md section 4; the trace is the model's, log 11). That the host
is not blocked in RDW is a premise (log 9). -/
def Obligations.AccessorsReturnTheRegisters : Prop :=
  ∀ (s : State) (i : InstIx), s.acq ≠ .polling → s.hostWait = none → (s.sensor i).configured = true →
    (s.sensor i).inProgress = false →
    exec (.isok i) s = .next { s with out := s.out ++ [.retOk (decide ((s.sensor i).error = .none))] } ∧
    exec (.temp i) s = .next
      { s with out := s.out ++ [.retTemp ((s.sensor i).bytes.t0.extractLsb' 0 7 ++ (s.sensor i).bytes.t1)] } ∧
    exec (.hum i) s = .next { s with out := s.out ++ [.retHum ((s.sensor i).bytes.h0 ++ (s.sensor i).bytes.h1)] }

/-- During a read of `i` the accessors are admitted, return some value of their type, and change no state of the
block; the count of draws is the model's own (44_host_operations.md section 4, decision D23; log 10). That the host is
not blocked in RDW is a premise (log 9), and the trace is the model's record (log 11). -/
def Obligations.AccessorsDuringAReadReturnSomeValue : Prop :=
  ∀ (s : State) (i : InstIx), s.acq ≠ .polling → s.hostWait = none → (s.sensor i).configured = true →
    (s.sensor i).inProgress = true →
    (∃ v, exec (.isok i) s = .next { s with out := s.out ++ [.retOk v], draws := s.draws + 1 }) ∧
    (∃ v, exec (.temp i) s = .next { s with out := s.out ++ [.retTemp v], draws := s.draws + 1 }) ∧
    (∃ v, exec (.hum i) s = .next { s with out := s.out ++ [.retHum v], draws := s.draws + 1 })

/-- The error kind and the byte registers of a configured instance are written by nothing but a read of it: with no
read of `i` in progress, every operation but READ and RDW of `i` leaves them, so the accessors repeat their values
(44_host_operations.md section 4, idempotence). -/
def Obligations.ResultsStayFixedBetweenReads : Prop :=
  ∀ (op : Instr) (s t : State) (i : InstIx), Inv s → exec op s = .next t → (s.sensor i).configured = true →
    (s.sensor i).inProgress = false → (∀ tok c, op ≠ .read i tok c ∧ op ≠ .rdw i tok c) →
    t.sensor i = s.sensor i

/-! ## The buffer -/

/-- PB_WRITE stores at the cursor and advances it, a write at capacity changes nothing, and a read after it gives the
sample at the old cursor and what was there elsewhere (20_memory.md section 2, the spec's decisions D9 and D18). -/
def Obligations.BufferReadAfterWrite : Prop :=
  ∀ (b : PulseBuffer) (v : Sample),
    (42 ≤ b.cur → b.write v = b) ∧
    (b.cur < 42 → (b.write v).cur = b.cur + 1 ∧ (b.write v).read b.cur = some v ∧
      ∀ k : Fin 42, k.val ≠ b.cur → (b.write v).entry[k] = b.entry[k] ∧ (b.write v).read k.val = b.read k.val)

/-- The frame of the buffer: EDGE and POLL change no entry but the one at the cursor, READ and RDW leave every entry
empty, every other operation leaves the buffer as it is (10_state.md R22). -/
def Obligations.BufferIsWrittenOnlyByCaptureAndRead : Prop :=
  ∀ (op : Instr) (s t : State), exec op s = .next t →
    (match op with
     | .edge _     => ∀ k : Fin 42, k.val ≠ s.pb.cur → t.pb.entry[k] = s.pb.entry[k]
     | .poll _     => ∀ k : Fin 42, k.val ≠ s.pb.cur → t.pb.entry[k] = s.pb.entry[k]
     | .read _ _ _ => t.pb.cur = 0 ∧ ∀ k : Fin 42, t.pb.entry[k] = none
     | .rdw _ _ _  => t.pb.cur = 0 ∧ ∀ k : Fin 42, t.pb.entry[k] = none
     | .cfg _ _ _  => t.pb = s.pb
     | .tmo        => t.pb = s.pb
     | .isok _     => t.pb = s.pb
     | .temp _     => t.pb = s.pb
     | .hum _      => t.pb = s.pb)

/-- The buffer invariant, kept by every step from every state that has it: an entry is written exactly when it lies
below the cursor (20_memory.md R55, an inference of the spec's). -/
def Obligations.StepKeepsTheBufferWellFormed : Prop :=
  ∀ s t : State, s.pb.wf → step s = .next t → t.pb.wf

/-! ## Whole-machine rules -/

/-- The frame of the shared registers: which operations may write each (10_state.md sections 3 to 7). The clauses on
the list of event words (log 1) and on the count of draws (log 10) are about the model's own state, which the spec
does not have. -/
def Obligations.SharedRegistersHaveOnlyTheirWriters : Prop :=
  ∀ (op : Instr) (s t : State), exec op s = .next t →
    t.events = s.events ∧
    (t.ref ≠ s.ref → op.mnemonic ∈ ["READ", "RDW", "EDGE"]) ∧
    (t.hicnt ≠ s.hicnt ∨ t.iter ≠ s.iter ∨ t.pinst ≠ s.pinst → op.mnemonic ∈ ["READ", "RDW", "POLL"]) ∧
    (t.active ≠ s.active ∨ t.timerHeld ≠ s.timerHeld ∨ t.irqReg ≠ s.irqReg →
      op.mnemonic ∈ ["READ", "RDW", "EDGE", "TMO"]) ∧
    (t.relT ≠ s.relT ∨ t.relG ≠ s.relG → op.mnemonic ∈ ["EDGE", "TMO"]) ∧
    (t.acq ≠ s.acq → op.mnemonic ∈ ["READ", "RDW", "EDGE", "TMO", "POLL"]) ∧
    (t.draws ≠ s.draws → op.mnemonic ∈ ["ISOK", "TEMP", "HUM"])

/-- The acquisition table (10_state.md section 3, whose last rows are the spec's decision D8): the transitions of the
acquisition state, complete, from every state that the invariant allows. -/
def Obligations.AcquisitionMovesAlongItsTable : Prop :=
  ∀ (op : Instr) (s t : State), Inv s → exec op s = .next t →
    let resting := s.acq = .idle ∨ s.acq = .complete ∨ s.acq = .timedOut
    match op with
    | .read i tok _ => resting ∧
        t.acq = if (s.sensor i).hasTimer = true then (if tok = true then .armed else .idle) else .polling
    | .rdw i tok _  => resting ∧
        t.acq = if (s.sensor i).hasTimer = true then (if tok = true then .armed else .idle) else .polling
    | .edge _       =>
        (s.acq = .armed → t.acq = .sampling ∧ t.pb.cur = 1) ∧
        (s.acq = .sampling → t.acq = if t.pb.cur < 41 then .sampling else .complete) ∧
        (resting → t.acq = s.acq) ∧ s.acq ≠ .polling
    | .tmo          =>
        (s.acq = .armed ∨ s.acq = .sampling → t.acq = .timedOut) ∧ (resting → t.acq = s.acq) ∧ s.acq ≠ .polling
    | .poll _       => s.acq = .polling ∧
        t.acq = if 41 ≤ t.pb.cur then .complete else if t.iter = 10000 then .timedOut else .polling
    | .cfg _ _ _    => s.acq ≠ .polling ∧ t.acq = s.acq
    | .isok _       => s.acq ≠ .polling ∧ t.acq = s.acq
    | .temp _       => s.acq ≠ .polling ∧ t.acq = s.acq
    | .hum _        => s.acq ≠ .polling ∧ t.acq = s.acq

/-- The invariant of the reachable states (10_state.md R32 and the rules Safety.lean names) is kept by every step from
every state that has it. The clause on the host's wait is about the model's field (log 9). -/
def Obligations.StepKeepsTheInvariant : Prop :=
  ∀ s t : State, Inv s → step s = .next t → Inv t

/-- The invariant holds at reset (10_state.md R32, 70_reset_and_hazards.md R240). That the host does not wait at reset
is the model's choice (log 9). -/
def Obligations.ResetMeetsTheInvariant : Prop := Inv State.reset

/-- The flag `in_progress[i]` is set by READ and RDW of `i` alone, and cleared by nothing but the callback of the
active instance or the iteration of the polled one (10_state.md R33). -/
def Obligations.ReadFlagIsSetAndClearedByItsOwners : Prop :=
  ∀ (op : Instr) (s t : State) (i : InstIx), Inv s → exec op s = .next t →
    ((s.sensor i).inProgress = false → (t.sensor i).inProgress = true →
      ∃ tok c, op = .read i tok c ∨ op = .rdw i tok c) ∧
    ((s.sensor i).inProgress = true → (t.sensor i).inProgress = false →
      (s.active = some i ∧ (op = .tmo ∨ ∃ c, op = .edge c)) ∨ (s.pinst = some i ∧ ∃ l, op = .poll l))

/-- An error of one instance never affects another (60_exceptions.md section 1): an operation writes no instance but
the one it names, the active one and the polled one. -/
def Obligations.OtherInstancesAreUntouched : Prop :=
  ∀ (op : Instr) (s t : State) (j : InstIx), exec op s = .next t → op.inst? ≠ some j → s.active ≠ some j →
    s.pinst ≠ some j → t.sensor j = s.sensor j

/-- CONFIG (60_exceptions.md section 1, R203) has its code 1 (30_encoding.md section 3, R80, the spec's decision D7)
among the five kinds, no operation raises it, and ISOK of an instance that held it would return 0. That the return is
read off the output trace is the model's record (log 11, DESIGN CHOICE). -/
def Obligations.ConfigErrorIsNeverRaised : Prop :=
  (ErrorKind.config.code = 1#3 ∧ ∀ e : ErrorKind, e ∈ [ErrorKind.none, .config, .timeout, .checksum, .noTimer]) ∧
  (∀ (op : Instr) (s t : State) (i : InstIx), exec op s = .next t → (t.sensor i).error = .config →
    (s.sensor i).error = .config) ∧
  (∀ (s t : State) (i : InstIx), (s.sensor i).error = .config → (s.sensor i).inProgress = false →
    exec (.isok i) s = .next t → t.out = s.out ++ [.retOk false])

/-- The configuration of a configured instance never changes (20_memory.md R65, the spec's decision D22). -/
def Obligations.ConfigurationIsFixedForLife : Prop :=
  ∀ (op : Instr) (s t : State) (i : InstIx), exec op s = .next t → (s.sensor i).configured = true →
    (t.sensor i).configured = true ∧ (t.sensor i).pin = (s.sensor i).pin ∧
    (t.sensor i).hasTimer = (s.sensor i).hasTimer

/-- The timer and the edge registration are released together, exactly once for each armed read, in the step that
clears `ACTIVE`, and never otherwise (10_state.md R46, 41_interrupt_capture.md section 4). -/
def Obligations.ResourcesAreReleasedOncePerArmedRead : Prop :=
  ∀ (op : Instr) (s t : State), exec op s = .next t →
    t.relT = s.relT + (if s.active.isSome ∧ t.active = none then 1 else 0) ∧
    t.relG = s.relG + (if s.active.isSome ∧ t.active = none then 1 else 0)

/-- While the host waits in RDW no operation of the host is taken, and the wait ends exactly in the step that clears
`in_progress` of its instance (44_host_operations.md section 3; the model's reading, log 9). -/
def Obligations.HostWaitsUntilItsReadIsOver : Prop :=
  ∀ (op : Instr) (s t : State) (i : InstIx), Inv s → s.hostWait = some i → exec op s = .next t →
    op.agent ≠ .host ∧ (t.hostWait = none ∨ t.hostWait = some i) ∧
    (t.hostWait = none ↔ (t.sensor i).inProgress = false)

/-- How a read can end after the step that started it, with what the byte registers hold then (44_host_operations.md
section 5, an inference of the spec's): by the interrupt strategy's timeout, without decoding; or decoded, with NONE,
CHECKSUM, or the polling strategy's TIMEOUT. -/
def Obligations.EveryReadEndsInOneOfItsOutcomes : Prop :=
  ∀ (op : Instr) (s t : State) (i : InstIx), Inv s → exec op s = .next t → (s.sensor i).inProgress = true →
    (t.sensor i).inProgress = false →
    t.active ≠ some i ∧ t.pinst ≠ some i ∧ (t.acq = .complete ∨ t.acq = .timedOut) ∧
    ((op = .tmo ∧ (s.sensor i).hasTimer = true ∧ (t.sensor i).error = .timeout ∧
        (t.sensor i).bytes = (s.sensor i).bytes) ∨
     ((t.sensor i).bytes = reassemble Config.logic1 t.pb ∧
        (((t.sensor i).error = .none ∧ t.pb.cur = 41 ∧ (t.sensor i).bytes.sum = (t.sensor i).bytes.chk) ∨
         ((t.sensor i).error = .checksum ∧ t.pb.cur = 41 ∧ (t.sensor i).bytes.sum ≠ (t.sensor i).bytes.chk) ∨
         ((t.sensor i).error = .timeout ∧ (s.sensor i).hasTimer = false ∧ t.pb.cur < 41))))

/-! ## Whole reads -/

/-- The interrupt strategy end to end: an admitted READ followed by any 41 edges whose deltas, after the lead-in,
spell a frame, delivers exactly that frame, with NONE if its checksum is right and CHECKSUM if not, and the read is
over (41_interrupt_capture.md, 43_bit_decoder.md). The operations arrive as event words (log 1), the host must not be
in RDW (log 9), LOGIC_1 is any value (log 5). -/
def Obligations.InterruptReadDeliversEveryFrame : Prop :=
  ∀ (s : State) (i : InstIx) (cnt0 : Sample) (cnts : List Sample) (f : Frame),
    Admits s (.read i true cnt0) → (s.sensor i).hasTimer = true → cnts.length = 41 →
    (∀ n, n < 40 → ∃ a b : Sample, cnts[n]? = some a ∧ cnts[n + 1]? = some b ∧
      (Config.logic1.toNat < (b - a).toNat ↔ f.bit n = true)) →
    ∃ t, Sys2Proof.core.run 42
        { s with events := encode (.read i true cnt0) :: cnts.map fun c => encode (.edge c) } = .next t ∧
      (t.sensor i).bytes = f ∧ (t.sensor i).error = (if f.sum = f.chk then .none else .checksum) ∧
      (t.sensor i).inProgress = false ∧ t.acq = .complete ∧ t.active = none ∧ t.timerHeld = false ∧
      t.irqReg = false ∧ t.events = []

/-- The polling strategy end to end: an admitted READ of an instance without a timer, any idle low iterations, then 41
pulses, each some high iterations and then some low ones (after the last one low iteration), all within the budget,
whose high counts after the lead-in spell a frame, delivers exactly that frame, with NONE if its checksum is right and
CHECKSUM if not (42_polling_capture.md, 43_bit_decoder.md; POLL_STOP = 41 is the spec's decision D4). The operations
arrive as event words (log 1), the host must not be in RDW (log 9), LOGIC_1 is any value (log 5). -/
def Obligations.PollingReadDeliversEveryFrame : Prop :=
  ∀ (s : State) (i : InstIx) (tok : Bool) (cnt0 : Sample) (idle : Nat) (pulses : List (Nat × Nat)) (f : Frame),
    let levels : List Bool := List.replicate idle false ++
      (pulses.flatMap fun p => List.replicate (p.1 + 1) true ++ List.replicate p.2 false) ++ [false]
    Admits s (.read i tok cnt0) → (s.sensor i).hasTimer = false → pulses.length = 41 → levels.length ≤ 10000 →
    (∀ n, n < 40 → ∃ p, pulses[n]? = some p ∧ 1 ≤ p.2) → (∃ p, pulses[40]? = some p ∧ p.2 = 0) →
    (∀ n, n < 40 → ∃ p, pulses[n + 1]? = some p ∧ (Config.logic1.toNat < p.1 + 1 ↔ f.bit n = true)) →
    ∃ t, Sys2Proof.core.run (1 + levels.length)
        { s with events := encode (.read i tok cnt0) :: levels.map fun l => encode (.poll l) } = .next t ∧
      (t.sensor i).bytes = f ∧ (t.sensor i).error = (if f.sum = f.chk then .none else .checksum) ∧
      (t.sensor i).inProgress = false ∧ t.acq = .complete ∧ t.pinst = none ∧ t.events = []
end

