-- ==== Sys2Proof/Laws/State.lean ====
section
/-! SUPPORT. One lemma per field per update of the state, true by rfl, and reading an instance after a write. -/

namespace Sys2Proof.Machine


/-! ## Writing an instance -/

@[simp] theorem setSensor_pb (s : State) (i : InstIx) (x : SensorInstance) : (s.setSensor i x).pb = s.pb := rfl
@[simp] theorem setSensor_acq (s : State) (i : InstIx) (x : SensorInstance) : (s.setSensor i x).acq = s.acq := rfl
@[simp] theorem setSensor_active (s : State) (i : InstIx) (x : SensorInstance) : (s.setSensor i x).active = s.active := rfl
@[simp] theorem setSensor_sensors (s : State) (i : InstIx) (x : SensorInstance) : (s.setSensor i x).sensors = s.sensors.set i.val x i.isLt := rfl
@[simp] theorem setSensor_ref (s : State) (i : InstIx) (x : SensorInstance) : (s.setSensor i x).ref = s.ref := rfl
@[simp] theorem setSensor_hicnt (s : State) (i : InstIx) (x : SensorInstance) : (s.setSensor i x).hicnt = s.hicnt := rfl
@[simp] theorem setSensor_iter (s : State) (i : InstIx) (x : SensorInstance) : (s.setSensor i x).iter = s.iter := rfl
@[simp] theorem setSensor_pinst (s : State) (i : InstIx) (x : SensorInstance) : (s.setSensor i x).pinst = s.pinst := rfl
@[simp] theorem setSensor_timerHeld (s : State) (i : InstIx) (x : SensorInstance) : (s.setSensor i x).timerHeld = s.timerHeld := rfl
@[simp] theorem setSensor_irqReg (s : State) (i : InstIx) (x : SensorInstance) : (s.setSensor i x).irqReg = s.irqReg := rfl
@[simp] theorem setSensor_relT (s : State) (i : InstIx) (x : SensorInstance) : (s.setSensor i x).relT = s.relT := rfl
@[simp] theorem setSensor_relG (s : State) (i : InstIx) (x : SensorInstance) : (s.setSensor i x).relG = s.relG := rfl
@[simp] theorem setSensor_hostWait (s : State) (i : InstIx) (x : SensorInstance) : (s.setSensor i x).hostWait = s.hostWait := rfl
@[simp] theorem setSensor_out (s : State) (i : InstIx) (x : SensorInstance) : (s.setSensor i x).out = s.out := rfl
@[simp] theorem setSensor_draws (s : State) (i : InstIx) (x : SensorInstance) : (s.setSensor i x).draws = s.draws := rfl
@[simp] theorem setSensor_events (s : State) (i : InstIx) (x : SensorInstance) : (s.setSensor i x).events = s.events := rfl

/-! ## Emitting outputs -/

@[simp] theorem emit_pb (s : State) (os : List Output) : (s.emit os).pb = s.pb := rfl
@[simp] theorem emit_acq (s : State) (os : List Output) : (s.emit os).acq = s.acq := rfl
@[simp] theorem emit_active (s : State) (os : List Output) : (s.emit os).active = s.active := rfl
@[simp] theorem emit_sensors (s : State) (os : List Output) : (s.emit os).sensors = s.sensors := rfl
@[simp] theorem emit_ref (s : State) (os : List Output) : (s.emit os).ref = s.ref := rfl
@[simp] theorem emit_hicnt (s : State) (os : List Output) : (s.emit os).hicnt = s.hicnt := rfl
@[simp] theorem emit_iter (s : State) (os : List Output) : (s.emit os).iter = s.iter := rfl
@[simp] theorem emit_pinst (s : State) (os : List Output) : (s.emit os).pinst = s.pinst := rfl
@[simp] theorem emit_timerHeld (s : State) (os : List Output) : (s.emit os).timerHeld = s.timerHeld := rfl
@[simp] theorem emit_irqReg (s : State) (os : List Output) : (s.emit os).irqReg = s.irqReg := rfl
@[simp] theorem emit_relT (s : State) (os : List Output) : (s.emit os).relT = s.relT := rfl
@[simp] theorem emit_relG (s : State) (os : List Output) : (s.emit os).relG = s.relG := rfl
@[simp] theorem emit_hostWait (s : State) (os : List Output) : (s.emit os).hostWait = s.hostWait := rfl
@[simp] theorem emit_out (s : State) (os : List Output) : (s.emit os).out = s.out ++ os := rfl
@[simp] theorem emit_draws (s : State) (os : List Output) : (s.emit os).draws = s.draws := rfl
@[simp] theorem emit_events (s : State) (os : List Output) : (s.emit os).events = s.events := rfl

/-! ## Recording an error -/

@[simp] theorem raise_pb (e : ErrorKind) (i : InstIx) (s : State) : (raise e i s).pb = s.pb := rfl
@[simp] theorem raise_acq (e : ErrorKind) (i : InstIx) (s : State) : (raise e i s).acq = s.acq := rfl
@[simp] theorem raise_active (e : ErrorKind) (i : InstIx) (s : State) : (raise e i s).active = s.active := rfl
@[simp] theorem raise_ref (e : ErrorKind) (i : InstIx) (s : State) : (raise e i s).ref = s.ref := rfl
@[simp] theorem raise_hicnt (e : ErrorKind) (i : InstIx) (s : State) : (raise e i s).hicnt = s.hicnt := rfl
@[simp] theorem raise_iter (e : ErrorKind) (i : InstIx) (s : State) : (raise e i s).iter = s.iter := rfl
@[simp] theorem raise_pinst (e : ErrorKind) (i : InstIx) (s : State) : (raise e i s).pinst = s.pinst := rfl
@[simp] theorem raise_timerHeld (e : ErrorKind) (i : InstIx) (s : State) : (raise e i s).timerHeld = s.timerHeld := rfl
@[simp] theorem raise_irqReg (e : ErrorKind) (i : InstIx) (s : State) : (raise e i s).irqReg = s.irqReg := rfl
@[simp] theorem raise_relT (e : ErrorKind) (i : InstIx) (s : State) : (raise e i s).relT = s.relT := rfl
@[simp] theorem raise_relG (e : ErrorKind) (i : InstIx) (s : State) : (raise e i s).relG = s.relG := rfl
@[simp] theorem raise_hostWait (e : ErrorKind) (i : InstIx) (s : State) : (raise e i s).hostWait = s.hostWait := rfl
@[simp] theorem raise_out (e : ErrorKind) (i : InstIx) (s : State) : (raise e i s).out = s.out := rfl
@[simp] theorem raise_draws (e : ErrorKind) (i : InstIx) (s : State) : (raise e i s).draws = s.draws := rfl
@[simp] theorem raise_events (e : ErrorKind) (i : InstIx) (s : State) : (raise e i s).events = s.events := rfl

/-! ## Beginning a read -/

@[simp] theorem beginRead_pb (i : InstIx) (s : State) : (beginRead i s).pb = s.pb := rfl
@[simp] theorem beginRead_acq (i : InstIx) (s : State) : (beginRead i s).acq = s.acq := rfl
@[simp] theorem beginRead_active (i : InstIx) (s : State) : (beginRead i s).active = s.active := rfl
@[simp] theorem beginRead_ref (i : InstIx) (s : State) : (beginRead i s).ref = s.ref := rfl
@[simp] theorem beginRead_hicnt (i : InstIx) (s : State) : (beginRead i s).hicnt = s.hicnt := rfl
@[simp] theorem beginRead_iter (i : InstIx) (s : State) : (beginRead i s).iter = s.iter := rfl
@[simp] theorem beginRead_pinst (i : InstIx) (s : State) : (beginRead i s).pinst = s.pinst := rfl
@[simp] theorem beginRead_timerHeld (i : InstIx) (s : State) : (beginRead i s).timerHeld = s.timerHeld := rfl
@[simp] theorem beginRead_irqReg (i : InstIx) (s : State) : (beginRead i s).irqReg = s.irqReg := rfl
@[simp] theorem beginRead_relT (i : InstIx) (s : State) : (beginRead i s).relT = s.relT := rfl
@[simp] theorem beginRead_relG (i : InstIx) (s : State) : (beginRead i s).relG = s.relG := rfl
@[simp] theorem beginRead_hostWait (i : InstIx) (s : State) : (beginRead i s).hostWait = s.hostWait := rfl
@[simp] theorem beginRead_out (i : InstIx) (s : State) : (beginRead i s).out = s.out := rfl
@[simp] theorem beginRead_draws (i : InstIx) (s : State) : (beginRead i s).draws = s.draws := rfl
@[simp] theorem beginRead_events (i : InstIx) (s : State) : (beginRead i s).events = s.events := rfl

/-! ## Ending a read -/

@[simp] theorem endRead_pb (i : InstIx) (s : State) : (endRead i s).pb = s.pb := rfl
@[simp] theorem endRead_acq (i : InstIx) (s : State) : (endRead i s).acq = s.acq := rfl
@[simp] theorem endRead_active (i : InstIx) (s : State) : (endRead i s).active = s.active := rfl
@[simp] theorem endRead_ref (i : InstIx) (s : State) : (endRead i s).ref = s.ref := rfl
@[simp] theorem endRead_hicnt (i : InstIx) (s : State) : (endRead i s).hicnt = s.hicnt := rfl
@[simp] theorem endRead_iter (i : InstIx) (s : State) : (endRead i s).iter = s.iter := rfl
@[simp] theorem endRead_pinst (i : InstIx) (s : State) : (endRead i s).pinst = s.pinst := rfl
@[simp] theorem endRead_timerHeld (i : InstIx) (s : State) : (endRead i s).timerHeld = s.timerHeld := rfl
@[simp] theorem endRead_irqReg (i : InstIx) (s : State) : (endRead i s).irqReg = s.irqReg := rfl
@[simp] theorem endRead_relT (i : InstIx) (s : State) : (endRead i s).relT = s.relT := rfl
@[simp] theorem endRead_relG (i : InstIx) (s : State) : (endRead i s).relG = s.relG := rfl
@[simp] theorem endRead_hostWait (i : InstIx) (s : State) : (endRead i s).hostWait = if s.hostWait = some i then none else s.hostWait := rfl
@[simp] theorem endRead_out (i : InstIx) (s : State) : (endRead i s).out = s.out := rfl
@[simp] theorem endRead_draws (i : InstIx) (s : State) : (endRead i s).draws = s.draws := rfl
@[simp] theorem endRead_events (i : InstIx) (s : State) : (endRead i s).events = s.events := rfl

/-! ## Emptying the buffer -/

@[simp] theorem pbReset_pb (s : State) : (pbReset s).pb = PulseBuffer.empty := rfl
@[simp] theorem pbReset_acq (s : State) : (pbReset s).acq = s.acq := rfl
@[simp] theorem pbReset_active (s : State) : (pbReset s).active = s.active := rfl
@[simp] theorem pbReset_sensors (s : State) : (pbReset s).sensors = s.sensors := rfl
@[simp] theorem pbReset_ref (s : State) : (pbReset s).ref = s.ref := rfl
@[simp] theorem pbReset_hicnt (s : State) : (pbReset s).hicnt = s.hicnt := rfl
@[simp] theorem pbReset_iter (s : State) : (pbReset s).iter = s.iter := rfl
@[simp] theorem pbReset_pinst (s : State) : (pbReset s).pinst = s.pinst := rfl
@[simp] theorem pbReset_timerHeld (s : State) : (pbReset s).timerHeld = s.timerHeld := rfl
@[simp] theorem pbReset_irqReg (s : State) : (pbReset s).irqReg = s.irqReg := rfl
@[simp] theorem pbReset_relT (s : State) : (pbReset s).relT = s.relT := rfl
@[simp] theorem pbReset_relG (s : State) : (pbReset s).relG = s.relG := rfl
@[simp] theorem pbReset_hostWait (s : State) : (pbReset s).hostWait = s.hostWait := rfl
@[simp] theorem pbReset_out (s : State) : (pbReset s).out = s.out := rfl
@[simp] theorem pbReset_draws (s : State) : (pbReset s).draws = s.draws := rfl
@[simp] theorem pbReset_events (s : State) : (pbReset s).events = s.events := rfl

/-! ## Writing the buffer -/

@[simp] theorem pbWrite_pb (v : Sample) (s : State) : (pbWrite v s).pb = s.pb.write v := rfl
@[simp] theorem pbWrite_acq (v : Sample) (s : State) : (pbWrite v s).acq = s.acq := rfl
@[simp] theorem pbWrite_active (v : Sample) (s : State) : (pbWrite v s).active = s.active := rfl
@[simp] theorem pbWrite_sensors (v : Sample) (s : State) : (pbWrite v s).sensors = s.sensors := rfl
@[simp] theorem pbWrite_ref (v : Sample) (s : State) : (pbWrite v s).ref = s.ref := rfl
@[simp] theorem pbWrite_hicnt (v : Sample) (s : State) : (pbWrite v s).hicnt = s.hicnt := rfl
@[simp] theorem pbWrite_iter (v : Sample) (s : State) : (pbWrite v s).iter = s.iter := rfl
@[simp] theorem pbWrite_pinst (v : Sample) (s : State) : (pbWrite v s).pinst = s.pinst := rfl
@[simp] theorem pbWrite_timerHeld (v : Sample) (s : State) : (pbWrite v s).timerHeld = s.timerHeld := rfl
@[simp] theorem pbWrite_irqReg (v : Sample) (s : State) : (pbWrite v s).irqReg = s.irqReg := rfl
@[simp] theorem pbWrite_relT (v : Sample) (s : State) : (pbWrite v s).relT = s.relT := rfl
@[simp] theorem pbWrite_relG (v : Sample) (s : State) : (pbWrite v s).relG = s.relG := rfl
@[simp] theorem pbWrite_hostWait (v : Sample) (s : State) : (pbWrite v s).hostWait = s.hostWait := rfl
@[simp] theorem pbWrite_out (v : Sample) (s : State) : (pbWrite v s).out = s.out := rfl
@[simp] theorem pbWrite_draws (v : Sample) (s : State) : (pbWrite v s).draws = s.draws := rfl
@[simp] theorem pbWrite_events (v : Sample) (s : State) : (pbWrite v s).events = s.events := rfl

/-! ## The handshake -/

@[simp] theorem handshake_pb (i : InstIx) (s : State) : (handshake i s).pb = s.pb := rfl
@[simp] theorem handshake_acq (i : InstIx) (s : State) : (handshake i s).acq = s.acq := rfl
@[simp] theorem handshake_active (i : InstIx) (s : State) : (handshake i s).active = s.active := rfl
@[simp] theorem handshake_sensors (i : InstIx) (s : State) : (handshake i s).sensors = s.sensors := rfl
@[simp] theorem handshake_ref (i : InstIx) (s : State) : (handshake i s).ref = s.ref := rfl
@[simp] theorem handshake_hicnt (i : InstIx) (s : State) : (handshake i s).hicnt = s.hicnt := rfl
@[simp] theorem handshake_iter (i : InstIx) (s : State) : (handshake i s).iter = s.iter := rfl
@[simp] theorem handshake_pinst (i : InstIx) (s : State) : (handshake i s).pinst = s.pinst := rfl
@[simp] theorem handshake_timerHeld (i : InstIx) (s : State) : (handshake i s).timerHeld = s.timerHeld := rfl
@[simp] theorem handshake_irqReg (i : InstIx) (s : State) : (handshake i s).irqReg = s.irqReg := rfl
@[simp] theorem handshake_relT (i : InstIx) (s : State) : (handshake i s).relT = s.relT := rfl
@[simp] theorem handshake_relG (i : InstIx) (s : State) : (handshake i s).relG = s.relG := rfl
@[simp] theorem handshake_hostWait (i : InstIx) (s : State) : (handshake i s).hostWait = s.hostWait := rfl
@[simp] theorem handshake_out (i : InstIx) (s : State) : (handshake i s).out = s.out ++ handshakeTrace (s.sensor i).pin := rfl
@[simp] theorem handshake_draws (i : InstIx) (s : State) : (handshake i s).draws = s.draws := rfl
@[simp] theorem handshake_events (i : InstIx) (s : State) : (handshake i s).events = s.events := rfl

/-! ## Releasing the resources -/

@[simp] theorem releaseResources_pb (s : State) : (releaseResources s).pb = s.pb := rfl
@[simp] theorem releaseResources_acq (s : State) : (releaseResources s).acq = s.acq := rfl
@[simp] theorem releaseResources_active (s : State) : (releaseResources s).active = s.active := rfl
@[simp] theorem releaseResources_sensors (s : State) : (releaseResources s).sensors = s.sensors := rfl
@[simp] theorem releaseResources_ref (s : State) : (releaseResources s).ref = s.ref := rfl
@[simp] theorem releaseResources_hicnt (s : State) : (releaseResources s).hicnt = s.hicnt := rfl
@[simp] theorem releaseResources_iter (s : State) : (releaseResources s).iter = s.iter := rfl
@[simp] theorem releaseResources_pinst (s : State) : (releaseResources s).pinst = s.pinst := rfl
@[simp] theorem releaseResources_timerHeld (s : State) : (releaseResources s).timerHeld = false := rfl
@[simp] theorem releaseResources_irqReg (s : State) : (releaseResources s).irqReg = false := rfl
@[simp] theorem releaseResources_relT (s : State) : (releaseResources s).relT = s.relT + 1 := rfl
@[simp] theorem releaseResources_relG (s : State) : (releaseResources s).relG = s.relG + 1 := rfl
@[simp] theorem releaseResources_hostWait (s : State) : (releaseResources s).hostWait = s.hostWait := rfl
@[simp] theorem releaseResources_out (s : State) : (releaseResources s).out = s.out ++ releaseTrace := rfl
@[simp] theorem releaseResources_draws (s : State) : (releaseResources s).draws = s.draws := rfl
@[simp] theorem releaseResources_events (s : State) : (releaseResources s).events = s.events := rfl

/-! ## Dropping the first event word -/

@[simp] theorem dropWord_pb (s : State) : (dropWord s).pb = s.pb := rfl
@[simp] theorem dropWord_acq (s : State) : (dropWord s).acq = s.acq := rfl
@[simp] theorem dropWord_active (s : State) : (dropWord s).active = s.active := rfl
@[simp] theorem dropWord_sensors (s : State) : (dropWord s).sensors = s.sensors := rfl
@[simp] theorem dropWord_ref (s : State) : (dropWord s).ref = s.ref := rfl
@[simp] theorem dropWord_hicnt (s : State) : (dropWord s).hicnt = s.hicnt := rfl
@[simp] theorem dropWord_iter (s : State) : (dropWord s).iter = s.iter := rfl
@[simp] theorem dropWord_pinst (s : State) : (dropWord s).pinst = s.pinst := rfl
@[simp] theorem dropWord_timerHeld (s : State) : (dropWord s).timerHeld = s.timerHeld := rfl
@[simp] theorem dropWord_irqReg (s : State) : (dropWord s).irqReg = s.irqReg := rfl
@[simp] theorem dropWord_relT (s : State) : (dropWord s).relT = s.relT := rfl
@[simp] theorem dropWord_relG (s : State) : (dropWord s).relG = s.relG := rfl
@[simp] theorem dropWord_hostWait (s : State) : (dropWord s).hostWait = s.hostWait := rfl
@[simp] theorem dropWord_out (s : State) : (dropWord s).out = s.out := rfl
@[simp] theorem dropWord_draws (s : State) : (dropWord s).draws = s.draws := rfl
@[simp] theorem dropWord_events (s : State) : (dropWord s).events = s.events.tail := rfl

/-! ## Reading an instance after an update -/

/-- Reading an instance after writing one: the written one if it is the same, the old one otherwise. -/
theorem sensor_setSensor (s : State) (i j : InstIx) (x : SensorInstance) :
    (s.setSensor i x).sensor j = if i = j then x else s.sensor j := by
  simp [State.sensor, State.setSensor, Vector.getElem_set, Fin.ext_iff]

@[simp] theorem sensor_setSensor_same (s : State) (i : InstIx) (x : SensorInstance) :
    (s.setSensor i x).sensor i = x := by
  simp [sensor_setSensor]

theorem sensor_setSensor_other (s : State) {i j : InstIx} (x : SensorInstance) (h : i ≠ j) :
    (s.setSensor i x).sensor j = s.sensor j := by
  simp [sensor_setSensor, h]

/-- Only the instances decide what an instance holds. -/
theorem sensor_of_sensors {s t : State} (h : t.sensors = s.sensors) (i : InstIx) : t.sensor i = s.sensor i := by
  simp [State.sensor, h]

@[simp] theorem sensor_emit (s : State) (os : List Output) (i : InstIx) : (s.emit os).sensor i = s.sensor i := rfl
@[simp] theorem sensor_pbReset (s : State) (i : InstIx) : (pbReset s).sensor i = s.sensor i := rfl
@[simp] theorem sensor_pbWrite (v : Sample) (s : State) (i : InstIx) : (pbWrite v s).sensor i = s.sensor i := rfl
@[simp] theorem sensor_handshake (k : InstIx) (s : State) (i : InstIx) : (handshake k s).sensor i = s.sensor i := rfl
@[simp] theorem sensor_releaseResources (s : State) (i : InstIx) : (releaseResources s).sensor i = s.sensor i := rfl
@[simp] theorem sensor_dropWord (s : State) (i : InstIx) : (dropWord s).sensor i = s.sensor i := rfl

/-- Recording an error writes `error` of one instance and nothing else of it. -/
theorem sensor_raise (e : ErrorKind) (i j : InstIx) (s : State) :
    (raise e i s).sensor j = if i = j then { s.sensor i with error := e } else s.sensor j :=
  sensor_setSensor s i j _

/-- Beginning a read writes `in_progress` of one instance. -/
theorem sensor_beginRead (i j : InstIx) (s : State) :
    (beginRead i s).sensor j = if i = j then { s.sensor i with inProgress := true } else s.sensor j :=
  sensor_setSensor s i j _

/-- Ending a read writes `in_progress` of one instance. -/
theorem sensor_endRead (i j : InstIx) (s : State) :
    (endRead i s).sensor j = if i = j then { s.sensor i with inProgress := false } else s.sensor j :=
  sensor_setSensor s i j _

end Sys2Proof.Machine
end

