-- ==== Sys2Proof/Laws/Buffer.lean ====
section
/-! SUPPORT. The laws of the Pulse Buffer: read after write, and that every buffer operation keeps `PulseBuffer.wf`. -/

namespace Sys2Proof.Machine

theorem write_cur (b : PulseBuffer) (v : Sample) :
    (b.write v).cur = if b.cur < Config.pbCapacity then b.cur + 1 else b.cur := by
  unfold PulseBuffer.write; split <;> rfl

/-- What an entry holds after a write: the sample at the old cursor, the old content elsewhere. -/
theorem write_entry (b : PulseBuffer) (v : Sample) (k : Nat) (hk : k < Config.pbCapacity) :
    (b.write v).entry[k] = if b.cur = k then some v else b.entry[k] := by
  unfold PulseBuffer.write
  split
  · simp [Vector.getElem_set]
  · rename_i h
    rw [if_neg (by omega)]

@[simp] theorem empty_entry (k : Nat) (hk : k < Config.pbCapacity) : PulseBuffer.empty.entry[k] = none := by
  simp [PulseBuffer.empty]

@[simp] theorem empty_cur : PulseBuffer.empty.cur = 0 := rfl

theorem wf_empty : PulseBuffer.empty.wf := by decide

theorem wf_write {b : PulseBuffer} (h : b.wf) (v : Sample) : (b.write v).wf := by
  refine ⟨?_, fun k => ?_⟩
  · rw [write_cur]; have := h.1; split <;> omega
  · have hk := h.2 k
    simp only [Fin.getElem_fin] at hk ⊢
    rw [write_entry, write_cur]
    have := k.isLt
    split
    · rename_i e; simp [e]
    · rename_i e
      rw [hk]
      split
      · simp; omega
      · rfl

/-- A read below the cursor gives the entry. -/
theorem read_below (b : PulseBuffer) (k : Nat) (hk : k < Config.pbCapacity) (h : k < b.cur) : b.read k = b.entry[k] := by
  simp [PulseBuffer.read, hk, Nat.not_le.mpr h]

/-- A read at or beyond the cursor gives empty. -/
theorem read_beyond (b : PulseBuffer) (k : Nat) (h : b.cur ≤ k) : b.read k = none := by
  simp [PulseBuffer.read, h]

/-- A read after a write below capacity: the sample just written, or what was there. -/
theorem read_write (b : PulseBuffer) (v : Sample) (k : Nat) (hc : b.cur < Config.pbCapacity) :
    (b.write v).read k = if b.cur = k then some v else b.read k := by
  by_cases e : b.cur = k
  · subst e
    rw [if_pos rfl, read_below _ _ hc (by rw [write_cur, if_pos hc]; omega), write_entry, if_pos rfl]
  · rw [if_neg e]
    by_cases hk : k < b.cur
    · rw [read_below _ k (by omega) (by rw [write_cur, if_pos hc]; omega), read_below _ k (by omega) hk, write_entry,
        if_neg e]
    · rw [read_beyond _ _ (by rw [write_cur, if_pos hc]; omega), read_beyond _ _ (by omega)]

end Sys2Proof.Machine
end

