-- ==== Sys2Proof/Laws/Encoding.lean ====
section
/-! SUPPORT. What each field of a spelled word reads as (spec/30_encoding.md R82, R83): the laws of the four formats
that a proof about decode and encode cites. -/

namespace Sys2Proof

/-! ## Words, fields and bits as numbers -/

/-- A concatenation as a number. -/
theorem toNat_append_eq {m n : Nat} (x : BitVec m) (y : BitVec n) : (x ++ y).toNat = x.toNat * 2 ^ n + y.toNat := by
  rw [BitVec.toNat_append, ← Nat.shiftLeft_add_eq_or_of_lt y.isLt, Nat.shiftLeft_eq]

/-- A field of a word as a number. -/
theorem toNat_field (w : Word) (lo n : Nat) : (w.extractLsb' lo n).toNat = w.toNat / 2 ^ lo % 2 ^ n := by
  simp [BitVec.extractLsb'_toNat, Nat.shiftRight_eq_div_pow]

/-- A bit of a word as a number. -/
theorem toNat_bit (w : Word) (k : Nat) : (w.getLsbD k).toNat = w.toNat / 2 ^ k % 2 := by
  simp only [BitVec.getLsbD, Nat.testBit_eq_decide_div_mod_eq]
  rcases Nat.mod_two_eq_zero_or_one (w.toNat / 2 ^ k) with h | h <;> simp [h]

/-! ## The fields of each format -/

theorem formatC_op (op : BitVec 4) (i : InstIx) (tmr : Bool) (pin : Pin) :
    (formatC op i tmr pin).extractLsb' 28 4 = op := by
  ext k hk
  simp only [formatC, BitVec.getElem_extractLsb', BitVec.getLsbD_append]
  interval_cases k <;> simp [BitVec.getLsbD_eq_getElem]

theorem formatC_inst (op : BitVec 4) (i : InstIx) (tmr : Bool) (pin : Pin) :
    (formatC op i tmr pin).extractLsb' 24 4 = BitVec.ofFin i := by
  ext k hk
  simp only [formatC, BitVec.getElem_extractLsb', BitVec.getLsbD_append]
  interval_cases k <;> simp [BitVec.getLsbD_eq_getElem]

theorem formatC_zero (op : BitVec 4) (i : InstIx) (tmr : Bool) (pin : Pin) :
    (formatC op i tmr pin).extractLsb' 9 15 = 0#15 := by
  ext k hk
  simp only [formatC, BitVec.getElem_extractLsb', BitVec.getLsbD_append]
  interval_cases k <;> simp [BitVec.getLsbD_eq_getElem]

theorem formatC_pin (op : BitVec 4) (i : InstIx) (tmr : Bool) (pin : Pin) :
    (formatC op i tmr pin).extractLsb' 0 8 = pin := by
  ext k hk
  simp only [formatC, BitVec.getElem_extractLsb', BitVec.getLsbD_append]
  interval_cases k <;> simp [BitVec.getLsbD_eq_getElem]

theorem formatC_tmr (op : BitVec 4) (i : InstIx) (tmr : Bool) (pin : Pin) :
    tmrField (formatC op i tmr pin) = tmr := by
  simp only [formatC, tmrField, BitVec.getLsbD_append]
  simp

theorem formatR_op (op : BitVec 4) (i : InstIx) (cnt0 : Sample) (tok : Bool) :
    (formatR op i cnt0 tok).extractLsb' 28 4 = op := by
  ext k hk
  simp only [formatR, BitVec.getElem_extractLsb', BitVec.getLsbD_append]
  interval_cases k <;> simp [BitVec.getLsbD_eq_getElem]

theorem formatR_inst (op : BitVec 4) (i : InstIx) (cnt0 : Sample) (tok : Bool) :
    (formatR op i cnt0 tok).extractLsb' 24 4 = BitVec.ofFin i := by
  ext k hk
  simp only [formatR, BitVec.getElem_extractLsb', BitVec.getLsbD_append]
  interval_cases k <;> simp [BitVec.getLsbD_eq_getElem]

theorem formatR_cnt0 (op : BitVec 4) (i : InstIx) (cnt0 : Sample) (tok : Bool) :
    (formatR op i cnt0 tok).extractLsb' 8 16 = cnt0 := by
  ext k hk
  simp only [formatR, BitVec.getElem_extractLsb', BitVec.getLsbD_append]
  interval_cases k <;> simp [BitVec.getLsbD_eq_getElem]

theorem formatR_zero (op : BitVec 4) (i : InstIx) (cnt0 : Sample) (tok : Bool) :
    (formatR op i cnt0 tok).extractLsb' 1 7 = 0#7 := by
  ext k hk
  simp only [formatR, BitVec.getElem_extractLsb', BitVec.getLsbD_append]
  interval_cases k <;> simp [BitVec.getLsbD_eq_getElem]

theorem formatR_tok (op : BitVec 4) (i : InstIx) (cnt0 : Sample) (tok : Bool) :
    tokField (formatR op i cnt0 tok) = tok := by
  simp only [formatR, tokField, BitVec.getLsbD_append]
  simp

theorem formatE_op (op : BitVec 4) (val : Sample) :
    (formatE op val).extractLsb' 28 4 = op := by
  ext k hk
  simp only [formatE, BitVec.getElem_extractLsb', BitVec.getLsbD_append]
  interval_cases k <;> simp [BitVec.getLsbD_eq_getElem]

theorem formatE_zero (op : BitVec 4) (val : Sample) :
    (formatE op val).extractLsb' 16 12 = 0#12 := by
  ext k hk
  simp only [formatE, BitVec.getElem_extractLsb', BitVec.getLsbD_append]
  interval_cases k <;> simp [BitVec.getLsbD_eq_getElem]

theorem formatE_val (op : BitVec 4) (val : Sample) :
    (formatE op val).extractLsb' 0 16 = val := by
  ext k hk
  simp only [formatE, BitVec.getElem_extractLsb', BitVec.getLsbD_append]
  interval_cases k <;> simp [BitVec.getLsbD_eq_getElem]

theorem formatA_op (op : BitVec 4) (i : InstIx) :
    (formatA op i).extractLsb' 28 4 = op := by
  ext k hk
  simp only [formatA, BitVec.getElem_extractLsb', BitVec.getLsbD_append]
  interval_cases k <;> simp [BitVec.getLsbD_eq_getElem]

theorem formatA_inst (op : BitVec 4) (i : InstIx) :
    (formatA op i).extractLsb' 24 4 = BitVec.ofFin i := by
  ext k hk
  simp only [formatA, BitVec.getElem_extractLsb', BitVec.getLsbD_append]
  interval_cases k <;> simp [BitVec.getLsbD_eq_getElem]

theorem formatA_zero (op : BitVec 4) (i : InstIx) :
    (formatA op i).extractLsb' 0 24 = 0#24 := by
  ext k hk
  simp only [formatA, BitVec.getElem_extractLsb', BitVec.getLsbD_append]
  interval_cases k <;> simp [BitVec.getLsbD_eq_getElem]

end Sys2Proof
end

