-- ==== Sys2Proof/Laws/Ops.lean ====
section
/-! SUPPORT. What each shared operation does, said once: admission, DECODE, FINISH, POLL_END, and the inversion of exec
per operation. Later proofs cite these and do not unfold the definitions. -/

namespace Sys2Proof.Machine

/-! ## Admission -/

theorem refuseIf_none (c : Bool) (r : Refusal) (rest : Option Refusal) :
    refuseIf c r rest = none ↔ c = false ∧ rest = none := by
  cases c <;> simp [refuseIf]

theorem isPolling_false (s : State) : s.isPolling = false ↔ s.acq ≠ .polling := by
  simp [State.isPolling]

theorem hostGate_none (s : State) (rest : Option Refusal) : hostGate s rest = none ↔ s.HostFree ∧ rest = none := by
  simp [hostGate, refuseIf_none, isPolling_false, State.HostFree, and_assoc]

theorem admitCfg_none (i : InstIx) (s : State) :
    admitCfg i s = none ↔ s.HostFree ∧ (s.sensor i).configured = false := by
  simp [admitCfg, hostGate_none, refuseIf_none]

theorem admitRead_none (i : InstIx) (s : State) :
    admitRead i s = none ↔
      s.HostFree ∧ (s.sensor i).configured = true ∧ (s.sensor i).inProgress = false ∧ s.active = none := by
  simp [admitRead, hostGate_none, refuseIf_none]

theorem admitAccessor_none (i : InstIx) (s : State) :
    admitAccessor i s = none ↔ s.HostFree ∧ (s.sensor i).configured = true := by
  simp [admitAccessor, hostGate_none, refuseIf_none]

theorem admitCallback_none (s : State) : admitCallback s = none ↔ s.acq ≠ .polling := by
  simp [admitCallback, refuseIf_none, isPolling_false]

theorem admitPoll_none (s : State) : admitPoll s = none ↔ s.acq = .polling := by
  simp [admitPoll, refuseIf_none, State.isPolling]

theorem admitted_next (a : Option Refusal) (t u : State) : admitted a t = .next u ↔ a = none ∧ t = u := by
  cases a <;> simp [admitted]

theorem admitted_refused (a : Option Refusal) (t : State) (r : Refusal) : admitted a t = .refused r ↔ a = some r := by
  cases a <;> simp [admitted]

/-! ## What each operation answers, exactly when admitted -/

theorem exec_cfg_next (i : InstIx) (pin : Pin) (tmr : Bool) (s t : State) :
    exec (.cfg i pin tmr) s = .next t ↔ Admits s (.cfg i pin tmr) ∧ configure i pin tmr s = t := by
  simp only [exec, execCfg, admitted_next, admitCfg_none, Admits]

theorem exec_read_next (i : InstIx) (tok : Bool) (cnt0 : Sample) (s t : State) :
    exec (.read i tok cnt0) s = .next t ↔
      Admits s (.read i tok cnt0) ∧ startRead Config.params i tok cnt0 s = t := by
  simp only [exec, execRead, admitted_next, admitRead_none, Admits]

theorem exec_edge_next (cnt : Sample) (s t : State) :
    exec (.edge cnt) s = .next t ↔ Admits s (.edge cnt) ∧ edge Config.params cnt s = t := by
  simp only [exec, execEdge, admitted_next, admitCallback_none, Admits]

theorem exec_tmo_next (s t : State) :
    exec .tmo s = .next t ↔ Admits s .tmo ∧ timeout Config.params s = t := by
  simp only [exec, execTmo, admitted_next, admitCallback_none, Admits]

theorem exec_poll_next (lvl : Bool) (s t : State) :
    exec (.poll lvl) s = .next t ↔ Admits s (.poll lvl) ∧ poll Config.params lvl s = t := by
  simp only [exec, execPoll, admitted_next, admitPoll_none, Admits]

theorem exec_isok_next (i : InstIx) (s t : State) :
    exec (.isok i) s = .next t ↔ Admits s (.isok i) ∧
      answer i (fun n => .retOk (Config.unspecOk n)) (.retOk (isOk (s.sensor i))) s = t := by
  simp only [exec, execIsok, admitted_next, admitAccessor_none, Admits]

theorem exec_temp_next (i : InstIx) (s t : State) :
    exec (.temp i) s = .next t ↔ Admits s (.temp i) ∧
      answer i (fun n => .retTemp (Config.unspecTemp n)) (.retTemp (tempTenths (s.sensor i).bytes)) s = t := by
  simp only [exec, execTemp, admitted_next, admitAccessor_none, Admits]

theorem exec_hum_next (i : InstIx) (s t : State) :
    exec (.hum i) s = .next t ↔ Admits s (.hum i) ∧
      answer i (fun n => .retHum (Config.unspecHum n)) (.retHum (humTenths (s.sensor i).bytes)) s = t := by
  simp only [exec, execHum, admitted_next, admitAccessor_none, Admits]

theorem exec_rdw_next (i : InstIx) (tok : Bool) (cnt0 : Sample) (s t : State) :
    exec (.rdw i tok cnt0) s = .next t ↔
      Admits s (.rdw i tok cnt0) ∧ startReadWait Config.params i tok cnt0 s = t := by
  simp only [exec, execRdw, admitted_next, admitRead_none, Admits]

/-! ## Instances -/

theorem setSensor_setSensor (s : State) (i : InstIx) (x y : SensorInstance) :
    (s.setSensor i x).setSensor i y = s.setSensor i y := by
  simp [State.setSensor]

theorem setSensor_self (s : State) (i : InstIx) : s.setSensor i (s.sensor i) = s := by
  simp [State.setSensor, State.sensor]

/-! ## The shared procedures -/

/-- What DECODE leaves in the fields of its instance. -/
def decoded (logic1 : Sample) (b : PulseBuffer) (x : SensorInstance) : SensorInstance :=
  { x with
    bytes := reassemble logic1 b
    error := if (reassemble logic1 b).sum ≠ (reassemble logic1 b).chk ∧ x.error = .none then .checksum else x.error }

/-- DECODE writes one instance and nothing else. -/
theorem decodeInto_eq (logic1 : Sample) (i : InstIx) (s : State) :
    decodeInto logic1 i s = s.setSensor i (decoded logic1 s.pb (s.sensor i)) := by
  unfold decodeInto decoded
  simp only [sensor_setSensor_same]
  split
  · simp [raise, setSensor_setSensor]
  · rfl

/-- What FINISH leaves in the fields of the active instance (R117): decoded if no error is recorded, read over. -/
def finished (logic1 : Sample) (b : PulseBuffer) (x : SensorInstance) : SensorInstance :=
  { (if x.error = .none then decoded logic1 b x else x) with inProgress := false }

/-- FINISH with `ACTIVE` none is a no-op. -/
theorem finish_none {p : Config.Params} {s : State} (h : s.active = none) : finish p s = s := by
  simp [finish, h]

/-- FINISH with an active instance, whole. -/
theorem finish_some {p : Config.Params} {s : State} {i : InstIx} (h : s.active = some i) :
    finish p s =
      { s.setSensor i (finished p.logic1 s.pb (s.sensor i)) with
        timerHeld := false, irqReg := false, relT := s.relT + 1, relG := s.relG + 1, out := s.out ++ releaseTrace
        active := none, hostWait := if s.hostWait = some i then none else s.hostWait } := by
  simp only [finish, h, sensor_releaseResources, finished, endRead]
  by_cases he : (s.sensor i).error = .none
  · simp only [he, if_true, decodeInto_eq]
    simp [State.setSensor, State.sensor, releaseResources, State.emit]
  · simp only [he, if_false]
    rfl

/-- What POLL_END leaves in the fields of the polled instance (R137). -/
def pollFinished (p : Config.Params) (b : PulseBuffer) (x : SensorInstance) : SensorInstance :=
  { decoded p.logic1 b (if b.cur < p.pollStop then { x with error := .timeout } else x) with inProgress := false }

/-- POLL_END with a polled instance, whole. -/
theorem pollEnd_some {p : Config.Params} {s : State} {i : InstIx} (h : s.pinst = some i) :
    pollEnd p s =
      { s.setSensor i (pollFinished p s.pb (s.sensor i)) with
        acq := if s.pb.cur < p.pollStop then .timedOut else .complete
        pinst := none, hostWait := if s.hostWait = some i then none else s.hostWait } := by
  by_cases hc : s.pb.cur < p.pollStop
  · simp [pollEnd, h, hc, decodeInto_eq, pollFinished, endRead, State.setSensor, State.sensor, raise]
  · simp [pollEnd, h, hc, decodeInto_eq, pollFinished, endRead, State.setSensor, State.sensor]

/-- The failed acquisition, whole: NO_TIMER recorded, the read over, nothing acquired (R113). -/
theorem arm_fails (p : Config.Params) (i : InstIx) (cnt0 : Sample) (s : State) :
    arm p i false cnt0 s =
      { s.setSensor i { s.sensor i with error := .noTimer, inProgress := false } with
        acq := .idle, hostWait := if s.hostWait = some i then none else s.hostWait } := by
  simp [arm, endRead, raise, setSensor_setSensor]

/-- READ up to the choice of the strategy: the flags, the empty buffer and the handshake (R171). -/
theorem read_prologue (i : InstIx) (s : State) :
    handshake i (pbReset (raise .none i (beginRead i s))) =
      { s.setSensor i { s.sensor i with inProgress := true, error := .none } with
        pb := PulseBuffer.empty, out := s.out ++ handshakeTrace (s.sensor i).pin } := by
  simp [handshake, pbReset, raise, beginRead, State.emit, State.setSensor, State.sensor]

/-- READ from its prologue on: the strategy is chosen by `has_timer[i]` (R110, R130). -/
theorem startRead_eq (p : Config.Params) (i : InstIx) (tok : Bool) (cnt0 : Sample) (s : State) :
    startRead p i tok cnt0 s =
      if (s.sensor i).hasTimer then
        arm p i tok cnt0
          { s.setSensor i { s.sensor i with inProgress := true, error := .none } with
            pb := PulseBuffer.empty, out := s.out ++ handshakeTrace (s.sensor i).pin }
      else
        pollBegin i
          { s.setSensor i { s.sensor i with inProgress := true, error := .none } with
            pb := PulseBuffer.empty, out := s.out ++ handshakeTrace (s.sensor i).pin } := by
  unfold startRead
  rw [read_prologue]
  simp [State.sensor, State.setSensor]
  rfl

/-- READ that arms, whole (R112). -/
theorem startRead_arms {p : Config.Params} {i : InstIx} {s : State} (h : (s.sensor i).hasTimer = true)
    (cnt0 : Sample) :
    startRead p i true cnt0 s =
      { s.setSensor i { s.sensor i with inProgress := true, error := .none } with
        pb := PulseBuffer.empty, timerHeld := true, irqReg := true, ref := cnt0, active := some i, acq := .armed
        out := s.out ++ handshakeTrace (s.sensor i).pin ++ armTrace p (s.sensor i).pin } := by
  rw [startRead_eq, if_pos h]
  simp [arm, State.setSensor, State.sensor, State.emit]

/-- READ that aborts with NO_TIMER, whole (R113). -/
theorem startRead_aborts {p : Config.Params} {i : InstIx} {s : State} (h : (s.sensor i).hasTimer = true)
    (cnt0 : Sample) :
    startRead p i false cnt0 s =
      { s.setSensor i { s.sensor i with inProgress := false, error := .noTimer } with
        pb := PulseBuffer.empty, acq := .idle, hostWait := if s.hostWait = some i then none else s.hostWait
        out := s.out ++ handshakeTrace (s.sensor i).pin } := by
  rw [startRead_eq, if_pos h, arm_fails]
  simp [State.setSensor, State.sensor]
  rfl

/-- READ that starts the polling loop, whole (R132). -/
theorem startRead_polls {p : Config.Params} {i : InstIx} {s : State} (h : (s.sensor i).hasTimer = false) (tok : Bool)
    (cnt0 : Sample) :
    startRead p i tok cnt0 s =
      { s.setSensor i { s.sensor i with inProgress := true, error := .none } with
        pb := PulseBuffer.empty, hicnt := 0, iter := 0, pinst := some i, acq := .polling
        out := s.out ++ handshakeTrace (s.sensor i).pin ++ [.lineDrv (s.sensor i).pin .inputNoPull] } := by
  rw [startRead_eq, if_neg (by simp [h])]
  simp [pollBegin, State.setSensor, State.sensor, State.emit]

/-- A recorded error keeps FINISH from decoding. -/
theorem finished_error (logic1 : Sample) (b : PulseBuffer) (x : SensorInstance) (h : x.error ≠ .none) :
    finished logic1 b x = { x with inProgress := false } := by
  simp [finished, h]

/-- With no error recorded FINISH decodes. -/
theorem finished_clean (logic1 : Sample) (b : PulseBuffer) (x : SensorInstance) (h : x.error = .none) :
    finished logic1 b x = { decoded logic1 b x with inProgress := false } := by
  simp [finished, h]

/-- TMO on an active instance, whole (R116, R117). -/
theorem timeout_some {p : Config.Params} {s : State} {i : InstIx} (h : s.active = some i) :
    timeout p s =
      { s.setSensor i { s.sensor i with error := .timeout, inProgress := false } with
        acq := .timedOut, timerHeld := false, irqReg := false, relT := s.relT + 1, relG := s.relG + 1
        out := s.out ++ releaseTrace, active := none
        hostWait := if s.hostWait = some i then none else s.hostWait } := by
  simp only [timeout, h]
  rw [finish_some (i := i) (by simp)]
  simp [finished, raise, State.setSensor, State.sensor]
  rfl

/-- EDGE on an active instance that does not store the 41st sample, whole (R114). -/
theorem edge_continues {p : Config.Params} {cnt : Sample} {s : State} {i : InstIx} (h : s.active = some i)
    (hc : (s.pb.write (pulseDelta cnt s.ref)).cur < 41) :
    edge p cnt s =
      { s with pb := s.pb.write (pulseDelta cnt s.ref), ref := cnt
               acq := if s.acq = .armed then .sampling else s.acq } := by
  unfold edge
  split
  · rename_i h'; simp [h] at h'
  · rw [if_neg (by simp [captureEdge]; omega)]
    rfl

/-- EDGE on an active instance that stores the 41st sample, whole (R114, R115, R117). -/
theorem edge_completes {p : Config.Params} {cnt : Sample} {s : State} {i : InstIx} (h : s.active = some i)
    (hc : 41 ≤ (s.pb.write (pulseDelta cnt s.ref)).cur) :
    edge p cnt s =
      { s.setSensor i (finished p.logic1 (s.pb.write (pulseDelta cnt s.ref)) (s.sensor i)) with
        pb := s.pb.write (pulseDelta cnt s.ref), ref := cnt, acq := .complete
        timerHeld := false, irqReg := false, relT := s.relT + 1, relG := s.relG + 1, out := s.out ++ releaseTrace
        active := none, hostWait := if s.hostWait = some i then none else s.hostWait } := by
  simp only [edge, h]
  rw [if_pos (by simp [captureEdge]; omega), finish_some (i := i) (by simp [captureEdge, h])]
  rfl

/-- What an iteration of the polling loop stores (R134). -/
theorem capturePoll_pb (lvl : Bool) (s : State) :
    (capturePoll lvl s).pb = if lvl = false ∧ 0 < s.hicnt.toNat then s.pb.write s.hicnt else s.pb := by
  cases lvl
  · by_cases h : 0 < s.hicnt.toNat <;> simp [capturePoll, h]
  · simp [capturePoll]

/-- What an iteration of the polling loop counts (R134). -/
theorem capturePoll_hicnt (lvl : Bool) (s : State) :
    (capturePoll lvl s).hicnt = if lvl then s.hicnt + 1 else if 0 < s.hicnt.toNat then 0 else s.hicnt := by
  cases lvl
  · by_cases h : 0 < s.hicnt.toNat <;> simp [capturePoll, h]
  · simp [capturePoll]

/-- The capture part of an iteration writes the buffer, `HICNT` and `ITER` only. -/
theorem capturePoll_eq (lvl : Bool) (s : State) :
    capturePoll lvl s =
      { s with pb := (capturePoll lvl s).pb, hicnt := (capturePoll lvl s).hicnt, iter := s.iter + 1 } := by
  cases lvl
  · by_cases h : 0 < s.hicnt.toNat <;> simp [capturePoll, h, pbWrite]
  · simp [capturePoll]

/-! ## Everything an operation can do, in one disjunction -/

theorem edge_none {p : Config.Params} {s : State} (cnt : Sample) (h : s.active = none) : edge p cnt s = s := by
  simp [edge, h]

theorem timeout_none {p : Config.Params} {s : State} (h : s.active = none) : timeout p s = s := by
  simp [timeout, h]

/-- EDGE on an active instance stores a sample and goes on, or stores the 41st and finishes. -/
theorem edge_cases (p : Config.Params) (cnt : Sample) {s : State} {i : InstIx} (h : s.active = some i) :
    ((s.pb.write (pulseDelta cnt s.ref)).cur < 41 ∧
      edge p cnt s =
        { s with pb := s.pb.write (pulseDelta cnt s.ref), ref := cnt
                 acq := if s.acq = .armed then .sampling else s.acq }) ∨
    (41 ≤ (s.pb.write (pulseDelta cnt s.ref)).cur ∧
      edge p cnt s =
        { s.setSensor i (finished p.logic1 (s.pb.write (pulseDelta cnt s.ref)) (s.sensor i)) with
          pb := s.pb.write (pulseDelta cnt s.ref), ref := cnt, acq := .complete
          timerHeld := false, irqReg := false, relT := s.relT + 1, relG := s.relG + 1, out := s.out ++ releaseTrace
          active := none, hostWait := if s.hostWait = some i then none else s.hostWait }) := by
  by_cases hc : (s.pb.write (pulseDelta cnt s.ref)).cur < 41
  · exact .inl ⟨hc, edge_continues h hc⟩
  · exact .inr ⟨by omega, edge_completes h (by omega)⟩

/-- An iteration of the polling loop goes on, or ends the loop. -/
theorem poll_cases (p : Config.Params) (lvl : Bool) (s : State) :
    (¬ (p.pollStop ≤ (capturePoll lvl s).pb.cur ∨ s.iter + 1 = p.pollBudget) ∧
      poll p lvl s =
        { s with pb := (capturePoll lvl s).pb, hicnt := (capturePoll lvl s).hicnt, iter := s.iter + 1 }) ∨
    ((p.pollStop ≤ (capturePoll lvl s).pb.cur ∨ s.iter + 1 = p.pollBudget) ∧
      ((s.pinst = none ∧ poll p lvl s =
          { s with pb := (capturePoll lvl s).pb, hicnt := (capturePoll lvl s).hicnt, iter := s.iter + 1 }) ∨
        ∃ i, s.pinst = some i ∧ poll p lvl s =
          { s.setSensor i (pollFinished p (capturePoll lvl s).pb (s.sensor i)) with
            pb := (capturePoll lvl s).pb, hicnt := (capturePoll lvl s).hicnt, iter := s.iter + 1
            acq := if (capturePoll lvl s).pb.cur < p.pollStop then .timedOut else .complete
            pinst := none, hostWait := if s.hostWait = some i then none else s.hostWait })) := by
  have e := capturePoll_eq lvl s
  have hi : (capturePoll lvl s).iter = s.iter + 1 := by rw [e]
  unfold poll
  simp only [hi]
  by_cases hc : p.pollStop ≤ (capturePoll lvl s).pb.cur ∨ s.iter + 1 = p.pollBudget
  · refine .inr ⟨hc, ?_⟩
    rw [if_pos hc]
    cases hp : s.pinst with
    | none =>
      refine .inl ⟨rfl, ?_⟩
      rw [← hp, ← e, pollEnd, e]
      simp [hp]
    | some i =>
      refine .inr ⟨i, rfl, ?_⟩
      have hq : (capturePoll lvl s).pinst = some i := by rw [e]; exact hp
      have hs : (capturePoll lvl s).sensors = s.sensors := by rw [e]
      rw [pollEnd_some hq, sensor_of_sensors hs]
      simp only [State.setSensor, hs]
      rw [e]
  · exact .inl ⟨hc, by rw [if_neg hc]; exact e⟩

/-- An accessor writes the output trace and the count of draws, nothing else. -/
theorem answer_writes (i : InstIx) (free : Nat → Output) (known : Output) (s : State) :
    ∃ o d, answer i free known s = { s with out := s.out ++ [o], draws := d } ∧
      ((s.sensor i).inProgress = false → o = known ∧ d = s.draws) := by
  unfold answer
  cases h : (s.sensor i).inProgress
  · exact ⟨_, _, rfl, by simp⟩
  · exact ⟨_, _, rfl, by simp⟩

/-- READ, in whichever way it goes, empties the buffer and writes of the instances its own only, whose configuration
and bytes it keeps. -/
theorem startRead_writes (p : Config.Params) (i : InstIx) (tok : Bool) (cnt0 : Sample) (s : State) :
    ∃ x : SensorInstance, (startRead p i tok cnt0 s).sensors = (s.setSensor i x).sensors ∧
      (startRead p i tok cnt0 s).pb = PulseBuffer.empty ∧
      x.configured = (s.sensor i).configured ∧ x.pin = (s.sensor i).pin ∧ x.hasTimer = (s.sensor i).hasTimer ∧
      x.bytes = (s.sensor i).bytes ∧ (x.error = .none ∨ x.error = .noTimer ∧ x.inProgress = false) ∧
      (startRead p i tok cnt0 s).relT = s.relT ∧ (startRead p i tok cnt0 s).relG = s.relG ∧
      (startRead p i tok cnt0 s).draws = s.draws ∧ (startRead p i tok cnt0 s).events = s.events := by
  cases ht : (s.sensor i).hasTimer
  · rw [startRead_polls ht]
    exact ⟨_, rfl, rfl, rfl, rfl, ht, rfl, .inl rfl, rfl, rfl, rfl, rfl⟩
  · cases tok
    · rw [startRead_aborts ht]
      exact ⟨_, rfl, rfl, rfl, rfl, ht, rfl, .inr ⟨rfl, rfl⟩, rfl, rfl, rfl, rfl⟩
    · rw [startRead_arms ht]
      exact ⟨_, rfl, rfl, rfl, rfl, ht, rfl, .inl rfl, rfl, rfl, rfl, rfl⟩

/-! ## What an instance holds after an operation that ends a read -/

/-- An instance of a state whose instances are those of another state with one written. -/
theorem sensor_of_write {s t : State} {i : InstIx} {x : SensorInstance} (h : t.sensors = (s.setSensor i x).sensors)
    (j : InstIx) : t.sensor j = if i = j then x else s.sensor j := by
  rw [sensor_of_sensors h, sensor_setSensor]

/-- The instances after the edge that stores the 41st sample. -/
theorem edge_completes_sensor {p : Config.Params} {cnt : Sample} {s : State} {i : InstIx} (h : s.active = some i)
    (hc : 41 ≤ (s.pb.write (pulseDelta cnt s.ref)).cur) (j : InstIx) :
    (edge p cnt s).sensor j =
      if i = j then finished p.logic1 (s.pb.write (pulseDelta cnt s.ref)) (s.sensor i) else s.sensor j :=
  sensor_of_write (by rw [edge_completes h hc]) j

/-- The instances after a timeout. -/
theorem timeout_sensor {p : Config.Params} {s : State} {i : InstIx} (h : s.active = some i) (j : InstIx) :
    (timeout p s).sensor j =
      if i = j then { s.sensor i with error := .timeout, inProgress := false } else s.sensor j :=
  sensor_of_write (by rw [timeout_some h]) j

/-- The instances after the polling loop is closed. -/
theorem pollEnd_sensor {p : Config.Params} {s : State} {i : InstIx} (h : s.pinst = some i) (j : InstIx) :
    (pollEnd p s).sensor j = if i = j then pollFinished p s.pb (s.sensor i) else s.sensor j :=
  sensor_of_write (by rw [pollEnd_some h]) j

end Sys2Proof.Machine
end

