-- ==== Sys2Proof/Laws/PerInstr.lean ====
section
/-! SUPPORT. Statements made once for each constructor of Instr: the word of every operation is spelled by its row of
the match and mask table (spec/30_encoding.md R84). -/

namespace Sys2Proof.Laws.EncodesRow

/-- The word of an operation meets the match and mask of its row. -/
def Statement (i : Instr) : Prop := i.row.spells (encode i) = true

theorem cfg (i : InstIx) (pin : Pin) (tmr : Bool) : Statement (.cfg i pin tmr) := by
  simp only [Statement, OpRow.spells, Instr.row, encode, formatC, beq_iff_eq]
  ext k hk
  simp only [BitVec.getElem_and, BitVec.getElem_append]
  interval_cases k <;> simp

theorem read (i : InstIx) (tok : Bool) (cnt0 : Sample) : Statement (.read i tok cnt0) := by
  simp only [Statement, OpRow.spells, Instr.row, encode, formatR, beq_iff_eq]
  ext k hk
  simp only [BitVec.getElem_and, BitVec.getElem_append]
  interval_cases k <;> simp

theorem edge (cnt : Sample) : Statement (.edge cnt) := by
  simp only [Statement, OpRow.spells, Instr.row, encode, formatE, beq_iff_eq]
  ext k hk
  simp only [BitVec.getElem_and, BitVec.getElem_append]
  interval_cases k <;> simp

theorem tmo : Statement .tmo := by
  simp only [Statement, OpRow.spells, Instr.row, encode, formatE, beq_iff_eq]
  ext k hk
  simp only [BitVec.getElem_and, BitVec.getElem_append]
  interval_cases k <;> simp

theorem poll (lvl : Bool) : Statement (.poll lvl) := by
  simp only [Statement, OpRow.spells, Instr.row, encode, formatE, beq_iff_eq]
  ext k hk
  simp only [BitVec.getElem_and, BitVec.getElem_append]
  interval_cases k <;> simp

theorem isok (i : InstIx) : Statement (.isok i) := by
  simp only [Statement, OpRow.spells, Instr.row, encode, formatA, beq_iff_eq]
  ext k hk
  simp only [BitVec.getElem_and, BitVec.getElem_append]
  interval_cases k <;> simp

theorem temp (i : InstIx) : Statement (.temp i) := by
  simp only [Statement, OpRow.spells, Instr.row, encode, formatA, beq_iff_eq]
  ext k hk
  simp only [BitVec.getElem_and, BitVec.getElem_append]
  interval_cases k <;> simp

theorem hum (i : InstIx) : Statement (.hum i) := by
  simp only [Statement, OpRow.spells, Instr.row, encode, formatA, beq_iff_eq]
  ext k hk
  simp only [BitVec.getElem_and, BitVec.getElem_append]
  interval_cases k <;> simp

theorem rdw (i : InstIx) (tok : Bool) (cnt0 : Sample) : Statement (.rdw i tok cnt0) := by
  simp only [Statement, OpRow.spells, Instr.row, encode, formatR, beq_iff_eq]
  ext k hk
  simp only [BitVec.getElem_and, BitVec.getElem_append]
  interval_cases k <;> simp

end Sys2Proof.Laws.EncodesRow
end

