-- ==== Sys2Proof/Tests/Slice0.lean ====
section
/-! SUPPORT. Tests of single steps, with expected results from spec/95_test_vectors.md, and for every statement with
hypotheses a witness that meets them together. -/

namespace Sys2Proof.Tests

open Sys2Proof.Machine

/-! ## The states the tests start from -/

/-- `LOGIC_1 = 25` and the defaults, as in spec/95_test_vectors.md. -/
def vectorParams : Config.Params := { logic1 := 25, pollStop := 41, pollBudget := 10000, timeoutTicks := 5000 }

/-- An unused slot. -/
def blankSensor : SensorInstance :=
  { configured := false, pin := 0, hasTimer := false, inProgress := false, error := .none, bytes := ⟨0, 0, 0, 0, 0⟩ }
/-- Configured on pin 3 with a timer, last frame `01 90 00 C8 59` (P1). -/
def timerSensor : SensorInstance :=
  { configured := true, pin := 3, hasTimer := true, inProgress := false, error := .none,
    bytes := ⟨0x01, 0x90, 0x00, 0xC8, 0x59⟩ }
/-- Configured on pin 5 without a timer, last frame `02 8C 01 5F EE` (P3). -/
def pollSensor : SensorInstance :=
  { configured := true, pin := 5, hasTimer := false, inProgress := false, error := .none,
    bytes := ⟨0x02, 0x8C, 0x01, 0x5F, 0xEE⟩ }

/-- The buffer that holds exactly these samples. -/
def bufferOf (vs : List Sample) : PulseBuffer := vs.foldl PulseBuffer.write PulseBuffer.empty

/-- Sensors 0 (timer) and 1 (polling) configured, the rest not, nothing going on. -/
def idleState : State :=
  { pb := PulseBuffer.empty, acq := .idle, active := none
    sensors := #v[timerSensor, pollSensor, blankSensor, blankSensor, blankSensor, blankSensor, blankSensor, blankSensor,
      blankSensor, blankSensor, blankSensor, blankSensor, blankSensor, blankSensor, blankSensor, blankSensor]
    ref := 0, hicnt := 0, iter := 0, pinst := none, timerHeld := false, irqReg := false, relT := 0, relG := 0
    hostWait := none, out := [], draws := 0, events := [] }

/-- Sensor 0 armed with these samples stored and this reference. -/
def activeState (vs : List Sample) (ref : Sample) : State :=
  { idleState.setSensor 0 { timerSensor with inProgress := true } with
    pb := bufferOf vs, acq := if vs = [] then .armed else .sampling, active := some 0, ref := ref
    timerHeld := true, irqReg := true }

/-- Sensor 1 in the polling loop with these samples stored and these counts. -/
def pollingState (vs : List Sample) (hicnt : Sample) (iter : Nat) : State :=
  { idleState.setSensor 1 { pollSensor with inProgress := true } with
    pb := bufferOf vs, acq := .polling, pinst := some 1, hicnt := hicnt, iter := iter }

/-- Does the outcome give a next state with this property? -/
def nextHas (o : Host.Outcome State Fault Refusal) (p : State → Bool) : Bool :=
  match o with
  | .next t    => p t
  | .fault _   => false
  | .refused _ => false

/-- Is the outcome a refusal for this reason? -/
def refusedFor (o : Host.Outcome State Fault Refusal) (r : Refusal) : Bool :=
  match o with
  | .next _    => false
  | .fault _   => false
  | .refused q => decide (q = r)

/-- The samples of P1: frame `01 90 00 C8 59`, the expected buffer written out in spec/95_test_vectors.md. -/
def samplesP1 : List Sample :=
  [12] ++ [19, 19, 19, 19, 19, 19, 19, 30] ++ [30, 19, 19, 30, 19, 19, 19, 19] ++
  [19, 19, 19, 19, 19, 19, 19, 19] ++ [30, 30, 19, 19, 30, 19, 19, 19] ++ [19, 30, 19, 30, 30, 19, 19, 30]

/-- The samples of P3: frame `02 8C 01 5F EE`. -/
def samplesP3 : List Sample :=
  [80] ++ [24, 24, 24, 24, 24, 24, 70, 24] ++ [70, 24, 24, 24, 70, 70, 24, 24] ++
  [24, 24, 24, 24, 24, 24, 24, 70] ++ [24, 70, 24, 70, 70, 70, 70, 70] ++ [70, 70, 70, 24, 70, 70, 70, 24]

/-! ## Well-formedness (the smoke: every check refuses an ill-formed term) -/

theorem test_wellFormed_accepts : (Instr.cfg 1 5 false).wellFormedFor 2 = true := by decide
/-- With two sensors, sensor 2 does not exist (R13). -/
theorem test_wellFormed_refuses_cfg : (Instr.cfg 2 1 false).wellFormedFor 2 = false := by decide
theorem test_wellFormed_refuses_read : (Instr.read 2 true 0).wellFormedFor 2 = false := by decide
theorem test_wellFormed_refuses_accessors :
    (Instr.isok 15).wellFormedFor 15 = false ∧ (Instr.temp 15).wellFormedFor 15 = false ∧
    (Instr.hum 15).wellFormedFor 15 = false ∧ (Instr.rdw 15 true 0).wellFormedFor 15 = false := by decide
/-- V-H7: words that spell nothing. -/
theorem test_wordWellFormed_refuses :
    ([0x90000000, 0xF0000000, 0x20010000, 0x31000000, 0x40000002, 0x50000001, 0x00000300, 0x10000002] : List Word).all
      (fun w => !wordWellFormed w) = true := by decide

/-! ## Decoding: words written out from the spec's formats (R82, R83) -/

/-- Format C: op 0000, inst 0000, zeros, tmr 1, pin 00000011 (V-H1). -/
theorem test_decode_cfg : decode 0b0000_0000_000000000000000_1_00000011#32 = .ok (.cfg 0 3 true) := by decide
/-- Format R: op 0001, inst 0010, cnt0 of ones, zeros, tok 1 (V-H6). -/
theorem test_decode_read : decode 0b0001_0010_1111111111111111_0000000_1#32 = .ok (.read 2 true 0xFFFF) := by decide
/-- Format E: op 0010, zeros, val 0000000001110000 (P2). -/
theorem test_decode_edge : decode 0b0010_000000000000_0000000001110000#32 = .ok (.edge 112) := by decide
/-- Format E: op 0011, all else zero. -/
theorem test_decode_tmo : decode 0b0011_000000000000_0000000000000000#32 = .ok .tmo := by decide
/-- Format E: op 0100, lvl 1. -/
theorem test_decode_poll : decode 0b0100_000000000000_0000000000000001#32 = .ok (.poll true) := by decide
/-- Format A: op 0101, inst 1111. -/
theorem test_decode_isok : decode 0b0101_1111_000000000000000000000000#32 = .ok (.isok 15) := by decide
/-- Format A: op 0110, inst 0001. -/
theorem test_decode_temp : decode 0b0110_0001_000000000000000000000000#32 = .ok (.temp 1) := by decide
/-- Format A: op 0111, inst 1000. -/
theorem test_decode_hum : decode 0b0111_1000_000000000000000000000000#32 = .ok (.hum 8) := by decide
/-- Format R: op 1000, inst 0001, cnt0 zero, tok 0 (V-H6). -/
theorem test_decode_rdw : decode 0b1000_0001_0000000000000000_0000000_0#32 = .ok (.rdw 1 false 0) := by decide
/-- V-H7: op 9 and 15 are reserved, a set must-be-zero bit is illegal. -/
theorem test_decode_refuses :
    decode 0x90000000#32 = .error .reservedOp ∧ decode 0xF0000000#32 = .error .reservedOp ∧
    decode 0x00000300#32 = .error .mustBeZero ∧ decode 0x10000002#32 = .error .mustBeZero ∧
    decode 0x20010000#32 = .error .mustBeZero ∧ decode 0x31000000#32 = .error .mustBeZero ∧
    decode 0x40000002#32 = .error .mustBeZero ∧ decode 0x50000001#32 = .error .mustBeZero := by decide
/-- The host's table word is the event word itself. -/
theorem test_decodeTableWord : decodeTableWord 32 0x8F00FF01 = some (.rdw 15 true 0x00FF) := by decide
/-- P1's text lines. -/
theorem test_text : (Instr.cfg 0 3 true).text = "CFG i0, 3, 1" ∧ (Instr.read 0 true 100).text = "READ i0, 1, 100" := by
  decide

/-! ## The decoder, with `LOGIC_1 = 25` -/

/-- V-D1: the threshold boundary. -/
theorem test_classify_threshold :
    let b := bufferOf [0, 0, 1, 24, 25, 26, 30, 9999, 65535]
    (List.range 9).map (classify 25 b) = [false, false, false, false, false, true, true, true, true] := by decide
/-- V-D2: an entry not written is a 0. -/
theorem test_classify_unwritten : classify 0 (bufferOf [1, 2]) 2 = false ∧ classify 0 (bufferOf [1, 2]) 1 = true := by
  decide
/-- S2, V-D4: the frame of P1, and that of P3. -/
theorem test_reassemble_P1 : reassemble 25 (bufferOf samplesP1) = ⟨0x01, 0x90, 0x00, 0xC8, 0x59⟩ := by decide +kernel
theorem test_reassemble_P3 : reassemble 25 (bufferOf samplesP3) = ⟨0x02, 0x8C, 0x01, 0x5F, 0xEE⟩ := by decide +kernel
/-- V-D4: the sign bit counts in the sum and is masked in the temperature; the sum wraps. -/
theorem test_tenths :
    (Frame.mk 0x00 0x00 0x80 0x65 0xE5).sum = 0xE5 ∧ (tempTenths ⟨0x00, 0x00, 0x80, 0x65, 0xE5⟩).toNat = 101 ∧
    (Frame.mk 0xFF 0xFF 0xFF 0xFF 0xFC).sum = 0xFC ∧ (humTenths ⟨0xFF, 0xFF, 0xFF, 0xFF, 0xFC⟩).toNat = 65535 ∧
    (tempTenths ⟨0xFF, 0xFF, 0xFF, 0xFF, 0xFC⟩).toNat = 32767 := by decide
/-- P4, V-D5: a mismatch is recorded, but not over a TIMEOUT. -/
theorem test_decodeInto_checksum :
    let b := bufferOf ([12] ++ List.replicate 40 19)
    let bad := bufferOf ([12, 30] ++ List.replicate 39 19)
    (decodeInto 25 0 { idleState with pb := b }).sensor 0 = { timerSensor with bytes := ⟨0, 0, 0, 0, 0⟩ } ∧
    ((decodeInto 25 0 { idleState with pb := bad }).sensor 0).error = .checksum ∧
    ((decodeInto 25 0 (raise .timeout 0 { idleState with pb := bad })).sensor 0).error = .timeout ∧
    ((decodeInto 25 0 (raise .timeout 0 { idleState with pb := bad })).sensor 0).bytes = ⟨0x80, 0, 0, 0, 0⟩ := by decide +kernel

/-! ## One step of each operation -/

/-- V-H1: CFG, and its refusal on a configured sensor. -/
theorem test_cfg : nextHas (exec (.cfg 15 255 true) idleState) (fun t =>
    decide (t = idleState.setSensor 15 { blankSensor with configured := true, pin := 255, hasTimer := true })) = true := by
  decide
theorem test_cfg_refused : refusedFor (exec (.cfg 0 4 false) idleState) .alreadyConfigured = true := by decide
/-- P1: READ arms, and its output trace. -/
theorem test_read_arms : nextHas (exec (.read 0 true 100) idleState) (fun t =>
    decide (t.acq = .armed ∧ t.active = some 0 ∧ t.ref = 100 ∧ t.timerHeld ∧ t.irqReg ∧ (t.sensor 0).inProgress ∧
      t.out = [.lineDrv 3 .output, .lineDrv 3 (.level true), .lineDrv 3 (.level false), .lineDrv 3 (.level true),
        .tmrCtl (.init 250000 16), .tmrCtl (.compare 5000), .tmrCtl .enable, .irqCtl (.register 3), .irqCtl .enable]))
    = true := by decide
/-- V-I8: READ without an acquired timer. -/
theorem test_read_noTimer : nextHas (exec (.read 0 false 7) idleState) (fun t =>
    decide (t.acq = .idle ∧ t.active = none ∧ !t.timerHeld ∧ t.relT = 0 ∧ t.ref = 0 ∧
      t.sensor 0 = { timerSensor with error := .noTimer })) = true := by decide
/-- P5: RDW without an acquired timer does not wait. -/
theorem test_rdw_noTimer : nextHas (exec (.rdw 0 false 0) idleState) (fun t =>
    decide (t.hostWait = none ∧ (t.sensor 0).error = .noTimer)) = true := by decide
/-- P3: RDW of a sensor without a timer: the loop starts and the host waits. -/
theorem test_rdw_polls : nextHas (exec (.rdw 1 false 0) idleState) (fun t =>
    decide (t.acq = .polling ∧ t.pinst = some 1 ∧ t.hostWait = some 1 ∧
      t.out = [.lineDrv 5 .output, .lineDrv 5 (.level true), .lineDrv 5 (.level false), .lineDrv 5 (.level true),
        .lineDrv 5 .inputNoPull])) = true := by decide
/-- V-I2: a delta across a counter wrap. -/
theorem test_edge_wraps : nextHas (exec (.edge 5) (activeState [] 0xFFF0)) (fun t =>
    decide (t.pb = bufferOf [21] ∧ t.ref = 5 ∧ t.acq = .sampling)) = true := by decide
/-- V-I6, P4: the 41st edge, with `LOGIC_1 = 25`: the frame, then a bad checksum. -/
theorem test_edge_completes :
    (edge vectorParams 882 (activeState (samplesP1.take 40) 852)).sensor 0 = timerSensor ∧
    ((edge vectorParams 871 (activeState (samplesP1.take 40) 852)).sensor 0).error = .checksum := by decide +kernel
/-- V-I5: the timeout, without decoding. -/
theorem test_tmo : nextHas (exec .tmo (activeState (samplesP1.take 40) 852)) (fun t =>
    decide (t.sensor 0 = { timerSensor with error := .timeout } ∧ t.acq = .timedOut ∧ t.active = none ∧
      t.relT = 1 ∧ t.relG = 1 ∧ t.pb.cur = 40)) = true := by decide +kernel
/-- V-I4: a stray TMO changes nothing. -/
theorem test_tmo_stray : nextHas (exec .tmo idleState) (fun t => decide (t = idleState)) = true := by decide
/-- V-P3: the first low level after a high one stores the count. -/
theorem test_poll_stores : nextHas (exec (.poll false) (pollingState [] 1 1)) (fun t =>
    decide (t.pb = bufferOf [1] ∧ t.hicnt = 0 ∧ t.iter = 2 ∧ t.acq = .polling)) = true := by decide
/-- V-P2, V-P6: the budget, and `POLL_STOP = 40`, with `LOGIC_1 = 25`. -/
theorem test_pollEnd :
    (poll vectorParams true (pollingState [] 9999 9999)).sensor 1 =
      { pollSensor with error := .timeout, bytes := ⟨0, 0, 0, 0, 0⟩ } ∧
    (poll { vectorParams with pollStop := 40 } false (pollingState (samplesP1.take 39) 19 3385)).sensor 1 =
      { pollSensor with error := .checksum, bytes := ⟨0x01, 0x90, 0x00, 0xC8, 0x58⟩ } := by decide +kernel
/-- V-H4: the accessors return 1, 200 and 400 after P1. -/
theorem test_isok : nextHas (exec (.isok 0) idleState) (fun t => decide (t.out = [.retOk true])) = true := by decide
theorem test_temp : nextHas (exec (.temp 0) idleState) (fun t => decide (t.out = [.retTemp 200])) = true := by decide
theorem test_hum : nextHas (exec (.hum 0) idleState) (fun t => decide (t.out = [.retHum 400])) = true := by decide
/-- V-P8: the polling loop admits only POLL. -/
theorem test_polling_refuses : refusedFor (exec (.isok 1) (pollingState [] 0 0)) .pollingLoopRuns = true := by decide

/-! ## Witnesses: for each statement with hypotheses, states and operands that meet them together -/

/-- The same state with these words to come. -/
def withEvents (s : State) (ws : List Word) : State := { s with events := ws }

theorem witness_idle_inv : Inv idleState := by constructor <;> decide
theorem witness_active_inv : Inv (activeState [] 7) := by constructor <;> decide
theorem witness_sampling_inv : Inv (activeState [12, 19] 31) := by constructor <;> decide
theorem witness_polling_inv : Inv (pollingState [80, 24] 3 9999) := by constructor <;> decide
/-- The boundary: one sample short of the frame, the whole budget but one spent. -/
theorem witness_last_sample_inv : Inv (activeState (samplesP1.take 40) 852) := by constructor <;> decide +kernel
theorem witness_last_poll_inv : Inv (pollingState (samplesP1.take 40) 9999 9999) := by constructor <;> decide +kernel

/-- Every operation answers a next state somewhere, from a state that meets the invariant (for the statements about
any operation that answers next). -/
theorem witness_everyOperationAnswersNext :
    (∃ t, exec (.cfg 2 7 true) idleState = .next t) ∧ (∃ t, exec (.read 0 true 5) idleState = .next t) ∧
    (∃ t, exec (.read 0 false 5) idleState = .next t) ∧ (∃ t, exec (.read 1 true 5) idleState = .next t) ∧
    (∃ t, exec (.edge 40) (activeState [12, 19] 31) = .next t) ∧ (∃ t, exec (.edge 40) idleState = .next t) ∧
    (∃ t, exec .tmo (activeState [] 7) = .next t) ∧ (∃ t, exec (.poll true) (pollingState [80, 24] 3 50) = .next t) ∧
    (∃ t, exec (.isok 0) idleState = .next t) ∧ (∃ t, exec (.temp 1) idleState = .next t) ∧
    (∃ t, exec (.hum 0) (activeState [] 7) = .next t) ∧ (∃ t, exec (.rdw 1 true 5) idleState = .next t) :=
  ⟨⟨_, rfl⟩, ⟨_, rfl⟩, ⟨_, rfl⟩, ⟨_, rfl⟩, ⟨_, rfl⟩, ⟨_, rfl⟩, ⟨_, rfl⟩, ⟨_, rfl⟩, ⟨_, rfl⟩, ⟨_, rfl⟩, ⟨_, rfl⟩, ⟨_, rfl⟩⟩

theorem witness_EncodeOfDecode : decode 0x00000103#32 = .ok (.cfg 0 3 true) := by decide

theorem witness_DecoderAgreesWithMatchMaskTable :
    wordWellFormed 0x10006401#32 = true ∧ decode 0x10006401#32 = .ok (.read 0 true 100) ∧
    ∃ r ∈ opTable, r.spells 0x10006401#32 = true := by decide

/-- OperandsAreTheirFields: a word of each operation that decodes, with every operand at the top of its field, or
next to one that is (V-H1, V-H6). -/
theorem witness_OperandsAreTheirFields :
    decode 0x0F0000FF#32 = .ok (.cfg 15 255 false) ∧ decode 0x12FFFF01#32 = .ok (.read 2 true 0xFFFF) ∧
    decode 0x2000FFFF#32 = .ok (.edge 0xFFFF) ∧ decode 0x30000000#32 = .ok .tmo ∧
    decode 0x40000001#32 = .ok (.poll true) ∧ decode 0x5F000000#32 = .ok (.isok 15) ∧
    decode 0x6F000000#32 = .ok (.temp 15) ∧ decode 0x7F000000#32 = .ok (.hum 15) ∧
    decode 0x8FFFFF00#32 = .ok (.rdw 15 false 0xFFFF) := by decide

/-- Both clauses at the edges of their ranges: op 9 and 15, and op 0 and 8 with a must-be-zero bit set. -/
theorem witness_IllegalWord :
    ([0x90000000, 0xF0000000] : List Word).all (fun w => !wordWellFormed w && decide (9 ≤ opField w)) = true ∧
    ([0x00000300, 0x80000002] : List Word).all (fun w => !wordWellFormed w && decide (opField w < 9)) = true ∧
    (withEvents idleState [0x90000000]).events = 0x90000000 :: [] := by decide

theorem witness_StepRuns :
    (withEvents idleState [0x30000000]).events = 0x30000000 :: [] ∧ decode 0x30000000#32 = .ok .tmo ∧
    idleState.events = [] := by decide

/-- Each operation admitted, each not admitted. -/
theorem witness_OperationIsTakenExactlyWhenAdmitted :
    Admits idleState (.cfg 2 7 true) ∧ Admits idleState (.read 0 true 5) ∧ Admits idleState (.rdw 1 true 5) ∧
    Admits idleState (.edge 5) ∧ Admits idleState .tmo ∧ Admits (pollingState [] 0 0) (.poll true) ∧
    Admits idleState (.isok 0) ∧ Admits idleState (.temp 0) ∧ Admits idleState (.hum 0) ∧
    ¬ Admits idleState (.cfg 0 7 true) ∧ ¬ Admits (activeState [] 7) (.read 0 true 5) ∧
    ¬ Admits idleState (.rdw 2 true 5) ∧ ¬ Admits (pollingState [] 0 0) (.edge 5) ∧
    ¬ Admits (pollingState [] 0 0) .tmo ∧ ¬ Admits idleState (.poll true) ∧ ¬ Admits idleState (.isok 2) ∧
    ¬ Admits (pollingState [] 0 0) (.temp 1) ∧ ¬ Admits idleState (.hum 15) := by
  simp only [Admits, State.HostFree]; decide

theorem witness_PollingLoopAdmitsOnlyPoll :
    (pollingState [] 0 0).acq = .polling ∧ ∀ lvl, Instr.tmo ≠ .poll lvl := by decide

/-- The clauses of ConfigureWritesOneInstance: in the loop, configured, and not configured. -/
theorem witness_ConfigureWritesOneInstance :
    (pollingState [] 0 0).acq = .polling ∧ idleState.acq ≠ .polling ∧ idleState.hostWait = none ∧
    (idleState.sensor 0).configured = true ∧ (idleState.sensor 15).configured = false := by decide

theorem witness_ReadWithTimerArms :
    Admits idleState (.read 0 true 5) ∧ (idleState.sensor 0).hasTimer = true := by
  simp only [Admits, State.HostFree]; decide

theorem witness_ReadWithoutAcquiredTimerAborts :
    Admits idleState (.read 0 false 5) ∧ (idleState.sensor 0).hasTimer = true := by
  simp only [Admits, State.HostFree]; decide

theorem witness_ReadWithoutTimerStartsPolling :
    Admits idleState (.read 1 true 5) ∧ (idleState.sensor 1).hasTimer = false := by
  simp only [Admits, State.HostFree]; decide

/-- BlockingReadIsReadThenWait: admitted, and refused. -/
theorem witness_BlockingReadIsReadThenWait :
    Admits idleState (.rdw 0 true 5) ∧ exec (.rdw 2 true 5) idleState = .refused .notConfigured :=
  ⟨by simp only [Admits, State.HostFree]; decide, rfl⟩

theorem witness_SecondReadCannotDisturbTheFirst :
    (activeState [12] 12).active.isSome = true ∧
    (withEvents (activeState [12] 12) [0x11000000]).events = encode (.read 1 false 0) :: [] ∧
    (withEvents (activeState [12] 12) [0x80000001]).events = encode (.rdw 0 true 0) :: [] := by decide

/-- EdgeStoresTheDelta: the first sample and the last but one. -/
theorem witness_EdgeStoresTheDelta :
    ((activeState [] 7).acq = .armed ∧ (activeState [] 7).active = some 0 ∧ (activeState [] 7).pb.cur < 40) ∧
    ((activeState (samplesP1.take 39) 833).acq = .sampling ∧ (activeState (samplesP1.take 39) 833).active = some 0 ∧
      (activeState (samplesP1.take 39) 833).pb.cur = 39) := by decide +kernel

/-- FortyFirstEdgeCompletesTheRead and EdgeAndTimeoutRaceTearsDownOnce. -/
theorem witness_FortyFirstEdge :
    (activeState (samplesP1.take 40) 852).acq ≠ .polling ∧ (activeState (samplesP1.take 40) 852).active = some 0 ∧
    (activeState (samplesP1.take 40) 852).pb.cur = 40 ∧
    ((activeState (samplesP1.take 40) 852).sensor 0).error = .none := by decide +kernel

/-- TimeoutEndsTheReadWithoutDecoding and StrayCallbacksChangeNothing: the three cases. -/
theorem witness_TimeoutAndStray :
    (pollingState [] 0 0).acq = .polling ∧ (idleState.acq ≠ .polling ∧ idleState.active = none) ∧
    ((activeState [] 7).acq ≠ .polling ∧ (activeState [] 7).active = some 0) := by decide

/-- CounterDeltaNeverWrapsUnderTheEnvironment: the largest counter value the environment presents. -/
theorem witness_CounterDelta :
    (activeState [12] 12).active = some 0 ∧ (activeState [12] 12).pb.cur < 42 ∧
    EnvAllows Config.params (activeState [12] 12) (.edge 4999) ∧
    ∃ t, exec (.edge 4999) (activeState [12] 12) = .next t :=
  ⟨by decide, by decide, by simp only [EnvAllows]; decide, _, rfl⟩

/-- PollIterationCountsOrStores: each clause, the last at its boundary. -/
theorem witness_PollIterationCountsOrStores :
    ((pollingState (samplesP1.take 40) 9 9998).acq = .polling ∧ (pollingState (samplesP1.take 40) 9 9998).iter + 1 ≠ 10000
      ∧ (pollingState (samplesP1.take 40) 9 9998).pb.cur < 41) ∧
    ((pollingState [] 0 0).acq = .polling ∧ (pollingState [] 0 0).hicnt = 0 ∧ (pollingState [] 0 0).pb.cur < 41) ∧
    ((pollingState (samplesP1.take 39) 9 9998).pb.cur = 39 ∧ (pollingState (samplesP1.take 39) 9 9998).hicnt ≠ 0) := by
  decide +kernel

theorem witness_FortyFirstPulse :
    (pollingState (samplesP1.take 40) 9 9999).acq = .polling ∧ (pollingState (samplesP1.take 40) 9 9999).pinst = some 1 ∧
    (pollingState (samplesP1.take 40) 9 9999).pb.cur = 40 ∧ (pollingState (samplesP1.take 40) 9 9999).hicnt ≠ 0 := by
  decide +kernel

/-- ExhaustedBudgetTimesOutAndDecodes: no sample, and forty with the line still high. -/
theorem witness_ExhaustedBudget :
    ((pollingState [] 0 9999).pinst = some 1 ∧ (pollingState [] 0 9999).iter = 9999 ∧
      (pollingState [] 0 9999).pb.cur = 0) ∧
    ((pollingState (samplesP1.take 40) 2 9999).pinst = some 1 ∧ (pollingState (samplesP1.take 40) 2 9999).iter = 9999 ∧
      (pollingState (samplesP1.take 40) 2 9999).pb.cur = 40 ∧ (true = true ∨
      (pollingState (samplesP1.take 40) 2 9999).hicnt = 0)) := by decide +kernel

/-- PolledSampleIsBetweenOneAnd9999: a sample of one iteration is stored. -/
theorem witness_PolledSample :
    Inv (pollingState [80] 1 1) ∧ ∃ t, exec (.poll false) (pollingState [80] 1 1) = .next t ∧
      t.pb.cur = (pollingState [80] 1 1).pb.cur + 1 :=
  ⟨by constructor <;> decide, _, rfl, rfl⟩

/-- PollingLoopEndsWithinItsBudget: one iteration is left. -/
theorem witness_PollingLoopEnds :
    Inv (pollingState [80, 24] 3 9999) ∧ (pollingState [80, 24] 3 9999).pinst = some 1 ∧
    [true].length = Config.params.pollBudget - (pollingState [80, 24] 3 9999).iter :=
  ⟨witness_polling_inv, rfl, rfl⟩

theorem witness_StoppingAtForty :
    ({ vectorParams with pollStop := 40 } : Config.Params).pollStop = 40 ∧
    (pollingState (samplesP1.take 40) 0 3386).pinst = some 1 ∧ (pollingState (samplesP1.take 40) 0 3386).pb.cur = 40 ∧
    ((pollingState (samplesP1.take 40) 0 3386).sensor 1).error = .none ∧
    (reassemble 25 (pollingState (samplesP1.take 40) 0 3386).pb).sum.getLsbD 0 = true := by decide +kernel

/-- SampleIsOneExactlyAboveThreshold: a written entry, an empty one, one at the cursor. -/
theorem witness_SampleIsOne :
    (0 < (bufferOf [26, 25]).cur ∧ (bufferOf [26, 25]).entry[(0 : Fin 42)] = some 26) ∧
    (bufferOf [26, 25]).entry[(41 : Fin 42)] = none ∧ (bufferOf [26, 25]).cur ≤ 2 := by decide

/-- DecoderReproducesEveryValidFrame: the frame and the buffer of P1. -/
theorem witness_DecoderReproduces :
    41 ≤ (bufferOf samplesP1).cur ∧ (idleState.sensor 0).error = .none ∧
    (∀ n, n < 40 → ∃ v : Sample, (bufferOf samplesP1).entry[n + 1]? = some (some v) ∧
      ((25 : Sample).toNat < v.toNat ↔ (Frame.mk 0x01 0x90 0x00 0xC8 0x59).bit n = true)) ∧
    (Frame.mk 0x01 0x90 0x00 0xC8 0x59).chk = (Frame.mk 0x01 0x90 0x00 0xC8 0x59).sum := by
  refine ⟨by decide +kernel, by decide, fun n hn => ⟨samplesP1.getD (n + 1) 0, ?_⟩, by decide⟩
  have h : ∀ n : Fin 40, (bufferOf samplesP1).entry[n.val + 1]? = some (some (samplesP1.getD (n.val + 1) 0)) ∧
      ((25 : Sample).toNat < (samplesP1.getD (n.val + 1) 0).toNat ↔
        (Frame.mk 0x01 0x90 0x00 0xC8 0x59).bit n.val = true) := by decide +kernel
  exact h ⟨n, hn⟩

/-- DecoderReadsOnlyTheDataSamples: two buffers that differ in the lead-in sample only. -/
theorem witness_DecoderReadsOnly :
    (bufferOf [12, 19, 30]).cur = (bufferOf [80, 19, 30]).cur ∧
    (∀ k : Fin 42, 1 ≤ k.val → k.val ≤ 40 → k.val < (bufferOf [12, 19, 30]).cur →
      (bufferOf [12, 19, 30]).entry[k] = (bufferOf [80, 19, 30]).entry[k]) ∧
    bufferOf [12, 19, 30] ≠ bufferOf [80, 19, 30] := by decide

/-- AccessorsReturnTheRegisters, and AccessorsDuringAReadReturnSomeValue. -/
theorem witness_Accessors :
    (idleState.acq ≠ .polling ∧ idleState.hostWait = none ∧ (idleState.sensor 0).configured = true ∧
      (idleState.sensor 0).inProgress = false) ∧
    ((activeState [] 7).acq ≠ .polling ∧ (activeState [] 7).hostWait = none ∧
      ((activeState [] 7).sensor 0).configured = true ∧ ((activeState [] 7).sensor 0).inProgress = true) := by decide

/-- ResultsStayFixedBetweenReads and OtherInstancesAreUntouched: a read of sensor 0 beside sensor 1. -/
theorem witness_ResultsStayFixed :
    Inv idleState ∧ (∃ t, exec (.read 0 true 5) idleState = .next t) ∧ (idleState.sensor 1).configured = true ∧
    (idleState.sensor 1).inProgress = false ∧
    (∀ tok c, Instr.read 0 true 5 ≠ .read 1 tok c ∧ Instr.read 0 true 5 ≠ .rdw 1 tok c) ∧
    (Instr.read 0 true 5).inst? ≠ some 1 ∧ idleState.active ≠ some 1 ∧ idleState.pinst ≠ some 1 :=
  ⟨witness_idle_inv, ⟨_, rfl⟩, by decide, by decide, by simp, by decide, by decide, by decide⟩

/-- BufferReadAfterWrite: a full buffer, and the last free entry. -/
theorem witness_BufferReadAfterWrite :
    42 ≤ (bufferOf (List.replicate 42 7)).cur ∧ (bufferOf (List.replicate 41 7)).cur = 41 := by decide +kernel

/-- The statements about a step that keeps something (the invariant, the buffer's form). -/
theorem witness_StepKeeps :
    Inv (withEvents (activeState [12, 19] 31) [0x20000028]) ∧
    (withEvents (activeState [12, 19] 31) [0x20000028]).pb.wf ∧
    ∃ t, step (withEvents (activeState [12, 19] 31) [0x20000028]) = .next t :=
  ⟨by constructor <;> decide, by decide, _, rfl⟩

/-- ConfigErrorIsNeverRaised: a state in which CONFIG is held (no run reaches it), and ISOK of it. -/
theorem witness_ConfigError :
    ∃ t, exec (.isok 0) (raise .config 0 idleState) = .next t ∧ (t.sensor 0).error = .config ∧
      ((raise .config 0 idleState).sensor 0).error = .config ∧
      ((raise .config 0 idleState).sensor 0).inProgress = false :=
  ⟨_, rfl, rfl, rfl, rfl⟩

/-- ConfigurationIsFixedForLife. -/
theorem witness_ConfigurationIsFixed :
    (∃ t, exec (.read 0 true 5) idleState = .next t) ∧ (idleState.sensor 0).configured = true :=
  ⟨⟨_, rfl⟩, by decide⟩

/-- HostWaitsUntilItsReadIsOver: the host waits for sensor 0, and the timeout comes. -/
theorem witness_HostWaits :
    Inv { activeState [] 7 with hostWait := some 0 } ∧ ({ activeState [] 7 with hostWait := some 0 }).hostWait = some 0 ∧
    ∃ t, exec .tmo { activeState [] 7 with hostWait := some 0 } = .next t :=
  ⟨by constructor <;> decide, rfl, _, rfl⟩

/-- ReadFlagIsSetAndClearedByItsOwners: a read sets the flag. -/
theorem witness_ReadFlag_set :
    ∃ t, exec (.read 0 true 5) idleState = .next t ∧ (idleState.sensor 0).inProgress = false ∧
      (t.sensor 0).inProgress = true := ⟨_, rfl, rfl, rfl⟩

/-- ReadFlagIsSetAndClearedByItsOwners and EveryReadEndsInOneOfItsOutcomes: the timeout ends a read. -/
theorem witness_ReadEnds_timeout :
    ∃ t, exec .tmo (activeState [] 7) = .next t ∧ ((activeState [] 7).sensor 0).inProgress = true ∧
      (t.sensor 0).inProgress = false := ⟨_, rfl, rfl, rfl⟩

/-- The same: the 41st edge ends a read. -/
theorem witness_ReadEnds_edge :
    ∃ t, exec (.edge 882) (activeState (samplesP1.take 40) 852) = .next t ∧
      ((activeState (samplesP1.take 40) 852).sensor 0).inProgress = true ∧ (t.sensor 0).inProgress = false := by
  refine ⟨_, (exec_edge_next _ _ _).2 ⟨?_, rfl⟩, by decide +kernel, ?_⟩
  · simp only [Admits]; decide +kernel
  · rw [edge_completes_sensor (i := 0) rfl (by decide +kernel), if_pos rfl]
    rfl

/-- The same: the last iteration of the budget ends a read. -/
theorem witness_ReadEnds_poll :
    ∃ t, exec (.poll true) (pollingState [] 9 9999) = .next t ∧ ((pollingState [] 9 9999).sensor 1).inProgress = true ∧
      (t.sensor 1).inProgress = false := by
  have e : poll Config.params true (pollingState [] 9 9999) =
      pollEnd Config.params (capturePoll true (pollingState [] 9 9999)) := rfl
  refine ⟨_, (exec_poll_next _ _ _).2 ⟨rfl, rfl⟩, by decide, ?_⟩
  rw [e, pollEnd_sensor (i := 1) rfl, if_pos rfl]
  rfl

/-- InterruptReadDeliversEveryFrame: edges at one counter value spell the frame of zeros, whatever `LOGIC_1` is. -/
theorem witness_InterruptRead :
    Admits idleState (.read 0 true 0) ∧ (idleState.sensor 0).hasTimer = true ∧
    (List.replicate 41 (0 : Sample)).length = 41 ∧
    (∀ n, n < 40 → ∃ a b : Sample, (List.replicate 41 (0 : Sample))[n]? = some a ∧
      (List.replicate 41 (0 : Sample))[n + 1]? = some b ∧
      (Config.logic1.toNat < (b - a).toNat ↔ (Frame.mk 0 0 0 0 0).bit n = true)) := by
  refine ⟨by simp only [Admits, State.HostFree]; decide, by decide, by simp, fun n hn => ⟨0, 0, ?_, ?_, ?_⟩⟩
  · rw [List.getElem?_replicate, if_pos (by omega)]
  · rw [List.getElem?_replicate, if_pos (by omega)]
  · have h : ∀ n : Fin 40, (Frame.mk 0 0 0 0 0).bit n.val = false := by decide
    rw [h ⟨n, hn⟩]
    simp

/-- Forty pulses of one high and one low iteration, and a last one of one high iteration. -/
def shortPulses : List (Nat × Nat) := List.replicate 40 (0, 1) ++ [(0, 0)]

/-- The frame whose forty bits are all `b`. -/
def constantFrame (b : Bool) : Frame := if b then ⟨0xFF, 0xFF, 0xFF, 0xFF, 0xFF⟩ else ⟨0, 0, 0, 0, 0⟩

/-- PollingReadDeliversEveryFrame: pulses of one iteration are ones exactly when `LOGIC_1` is 0. -/
theorem witness_PollingRead :
    Admits idleState (.read 1 false 0) ∧ (idleState.sensor 1).hasTimer = false ∧ shortPulses.length = 41 ∧
    (List.replicate 0 false ++
      (shortPulses.flatMap fun p => List.replicate (p.1 + 1) true ++ List.replicate p.2 false) ++ [false]).length ≤ 10000 ∧
    (∀ n, n < 40 → ∃ p, shortPulses[n]? = some p ∧ 1 ≤ p.2) ∧ (∃ p, shortPulses[40]? = some p ∧ p.2 = 0) ∧
    (∀ n, n < 40 → ∃ p, shortPulses[n + 1]? = some p ∧
      (Config.logic1.toNat < p.1 + 1 ↔ (constantFrame (decide (Config.logic1.toNat < 1))).bit n = true)) := by
  have hp : ∀ n : Fin 41, ∃ p, shortPulses[n.val]? = some p ∧ p.1 = 0 ∧ (n.val < 40 → p.2 = 1) := by
    intro n
    refine ⟨if n.val < 40 then (0, 1) else (0, 0), ?_⟩
    revert n
    decide +kernel
  have hf : ∀ (b : Bool) (n : Fin 40), (constantFrame b).bit n.val = b := by decide +kernel
  have hl : (List.replicate 0 false ++
      (shortPulses.flatMap fun p => List.replicate (p.1 + 1) true ++ List.replicate p.2 false) ++ [false]).length = 82 :=
    rfl
  refine ⟨by simp only [Admits, State.HostFree]; decide, by decide, by decide +kernel, by rw [hl]; omega,
    fun n hn => ?_, ⟨(0, 0), by decide +kernel, rfl⟩, fun n hn => ?_⟩
  · obtain ⟨p, h1, _, h3⟩ := hp ⟨n, by omega⟩
    exact ⟨p, h1, (h3 hn).ge⟩
  · obtain ⟨p, h1, h2, _⟩ := hp ⟨n + 1, by omega⟩
    refine ⟨p, h1, ?_⟩
    rw [hf _ ⟨n, hn⟩, h2]
    simp

end Sys2Proof.Tests
end

