-- ==== Sys2Proof/Proofs/DataBytes.lean ====
section
/-! PROOFS. The data bytes (spec/30_encoding.md R72 to R75): how a sample classifies, the two results as concatenations of
the byte registers, and the checksum. -/

namespace Sys2Proof.Machine

/-! ## Classification of a sample (R72) -/

/-- An empty entry reads as empty, below the cursor or not. -/
theorem read_of_entry_none {b : PulseBuffer} {k : Nat} (hk : k < Config.pbCapacity) (h : b.entry[k] = none) :
    b.read k = none := by
  by_cases hc : k < b.cur
  · rw [read_below b k hk hc, h]
  · exact read_beyond b k (by omega)

theorem classify_of_read_some (l : Sample) {b : PulseBuffer} {k : Nat} {v : Sample} (h : b.read k = some v) :
    classify l b k = true ↔ l.toNat < v.toNat := by
  simp [classify, h]

theorem classify_of_read_none (l : Sample) {b : PulseBuffer} {k : Nat} (h : b.read k = none) :
    classify l b k = false := by
  simp [classify, h]

/-- Settles O29: CLASSIFY goes through the buffer's read, which gives the entry below the cursor and empty elsewhere. -/
theorem sampleIsOneExactlyAboveThreshold : Obligations.SampleIsOneExactlyAboveThreshold := by
  intro l b k
  refine ⟨fun v hc hv => ?_, fun hv => ?_, fun hc => ?_⟩
  · exact classify_of_read_some l ((read_below b k k.isLt hc).trans hv)
  · exact classify_of_read_none l (read_of_entry_none k.isLt hv)
  · exact classify_of_read_none l (read_beyond b k hc)

/-! ## The checksum (R75) -/

/-- The sum of the data bytes as a number. -/
theorem Frame.sum_toNat (f : Frame) :
    f.sum.toNat = (f.h0.toNat + f.h1.toNat + f.t0.toNat + f.t1.toNat) % 256 := by
  simp [Frame.sum, BitVec.toNat_add]

/-- The sum determines `T0` when the other data bytes stay: addition modulo 256 cancels them. -/
theorem Frame.sum_with_t0 (f : Frame) (b : Byte) : ({ f with t0 := b } : Frame).sum = f.sum ↔ b = f.t0 := by
  simp only [Frame.sum, BitVec.add_left_inj, BitVec.add_right_inj]

/-- `T0` is summed unmasked, so its bit 7 counts. -/
theorem Frame.sum_flip_t0 (f : Frame) : ({ f with t0 := f.t0 ^^^ 0x80#8 } : Frame).sum ≠ f.sum := by
  rw [Ne, Frame.sum_with_t0]
  simp

/-- DECODE of an instance with no error recorded ends in CHECKSUM exactly when the two checksums of the frame differ. -/
theorem decoded_error_checksum (l : Sample) (b : PulseBuffer) {x : SensorInstance} (hx : x.error = .none) :
    (decoded l b x).error = .checksum ↔ (decoded l b x).bytes.sum ≠ (decoded l b x).bytes.chk := by
  simp [decoded, hx]

/-- Settles O34: the sum is read as a number, and DECODE leaves in its instance what `decoded` says. -/
theorem expectedChecksumIsSumModulo256 : Obligations.ExpectedChecksumIsSumModulo256 := by
  refine ⟨fun f => ⟨f.sum_toNat, f.sum_flip_t0⟩, fun l s i herr => ?_⟩
  rw [decodeInto_eq, sensor_setSensor_same, decoded_error_checksum l s.pb herr, ← Frame.sum_toNat]
  exact BitVec.toNat_ne_iff_ne.symm

/-! ## Humidity and temperature (R73, R74) -/

theorem humTenths_eq_append (f : Frame) : humTenths f = f.h0 ++ f.h1 := by
  rw [← BitVec.setWidth_eq (f.h0 ++ f.h1), BitVec.setWidth_append_eq_shiftLeft_setWidth_or, humTenths]

/-- Masking with `0x7F` keeps the low seven bits. -/
theorem and_mask7_toNat (b : Byte) : (b &&& 0x7F#8).toNat = b.toNat % 128 :=
  (BitVec.toNat_and b 0x7F#8).trans (Nat.and_two_pow_sub_one_eq_mod b.toNat 7)

theorem setWidth_and_mask7 (b : Byte) : (b &&& 0x7F#8).setWidth 15 = (b.extractLsb' 0 7).setWidth 15 := by
  apply BitVec.eq_of_toNat_eq
  rw [BitVec.toNat_setWidth, BitVec.toNat_setWidth, and_mask7_toNat, BitVec.extractLsb'_toNat]
  rfl

theorem tempTenths_eq_append (f : Frame) : tempTenths f = f.t0.extractLsb' 0 7 ++ f.t1 := by
  rw [← BitVec.setWidth_eq (f.t0.extractLsb' 0 7 ++ f.t1), BitVec.setWidth_append_eq_shiftLeft_setWidth_or, tempTenths,
    setWidth_and_mask7]

theorem humTenths_toNat (f : Frame) : (humTenths f).toNat = f.h0.toNat * 256 + f.h1.toNat := by
  rw [humTenths_eq_append]
  exact toNat_append_eq f.h0 f.h1

theorem tempTenths_toNat (f : Frame) : (tempTenths f).toNat = (f.t0.toNat % 128) * 256 + f.t1.toNat := by
  rw [tempTenths_eq_append, toNat_append_eq, BitVec.extractLsb'_toNat]
  rfl

/-- Bit 7 of `T0` lies outside the seven bits that the temperature takes. -/
theorem tempTenths_flip_t0 (f : Frame) : tempTenths { f with t0 := f.t0 ^^^ 0x80#8 } = tempTenths f := by
  simp [tempTenths_eq_append, BitVec.extractLsb'_xor]

/-- Settles O35: both results are concatenations, so their values and ranges are those of the parts. -/
theorem tenthsAreAssembledFromTheBytes : Obligations.TenthsAreAssembledFromTheBytes := by
  intro f
  refine ⟨humTenths_eq_append f, humTenths_toNat f, tempTenths_eq_append f, tempTenths_toNat f, ?_, ?_,
    tempTenths_flip_t0 f, f.sum_flip_t0⟩
  · exact Nat.le_of_lt_succ (humTenths f).isLt
  · exact Nat.le_of_lt_succ (tempTenths f).isLt

end Sys2Proof.Machine
end

