-- ==== Sys2Proof/Proofs/CallbackRace.lean ====
section
/-! PROOFS. The race of the 41st edge and the timeout (spec/41_interrupt_capture.md R119): the callback that comes first
ends the read and clears `ACTIVE`, so the one that follows is stray (R118). -/

namespace Sys2Proof.Machine

/-! ## Stray callbacks (R118) -/

theorem exec_edge_stray (cnt : Sample) {s : State} (hacq : s.acq ≠ .polling) (hact : s.active = none) :
    exec (.edge cnt) s = .next s :=
  (exec_edge_next cnt s s).mpr ⟨hacq, edge_none cnt hact⟩

theorem exec_tmo_stray {s : State} (hacq : s.acq ≠ .polling) (hact : s.active = none) : exec .tmo s = .next s :=
  (exec_tmo_next s s).mpr ⟨hacq, timeout_none hact⟩

/-! ## What the completing edge leaves in its instance -/

/-- The sample stored on 40 others is the 41st. -/
theorem write_cur_41st {b : PulseBuffer} (h : b.cur = 40) (v : Sample) : (b.write v).cur = 41 := by
  rw [write_cur, h]
  rfl

theorem finished_clean_bytes (l : Sample) (b : PulseBuffer) {x : SensorInstance} (hx : x.error = .none) :
    (finished l b x).bytes = reassemble l b := by
  rw [finished_clean l b x hx]
  rfl

/-- From a clean instance FINISH records CHECKSUM or nothing. -/
theorem finished_clean_error (l : Sample) (b : PulseBuffer) {x : SensorInstance} (hx : x.error = .none) :
    (finished l b x).error = .checksum ∨ (finished l b x).error = .none := by
  rw [finished_clean l b x hx]
  by_cases hsum : (reassemble l b).sum = (reassemble l b).chk
  · exact .inr (by simp [decoded, hsum, hx])
  · exact .inl (by simp [decoded, hsum, hx])

/-! ## The two orders (R119) -/

/-- The 41st edge first: it completes and decodes, and the timeout changes nothing. -/
theorem edge_then_tmo (cnt : Sample) {s : State} {i : InstIx} (hacq : s.acq ≠ .polling) (hact : s.active = some i)
    (hcur : s.pb.cur = 40) (herr : (s.sensor i).error = .none) :
    ∃ t, exec (.edge cnt) s = .next t ∧ exec .tmo t = .next t ∧ t.acq = .complete ∧
      (t.sensor i).bytes = reassemble Config.logic1 t.pb ∧ t.pb.cur = 41 ∧ (t.sensor i).error ≠ .timeout ∧
      t.relT = s.relT + 1 ∧ t.relG = s.relG + 1 := by
  have hwrite := write_cur_41st hcur (pulseDelta cnt s.ref)
  have hedge := edge_completes (p := Config.params) hact hwrite.ge
  have hsensor := edge_completes_sensor (p := Config.params) hact hwrite.ge i
  rw [if_pos rfl] at hsensor
  have hstray : exec .tmo (edge Config.params cnt s) = .next (edge Config.params cnt s) :=
    exec_tmo_stray (by simp [hedge]) (by simp [hedge])
  refine ⟨_, (exec_edge_next ..).mpr ⟨hacq, rfl⟩, hstray, by simp [hedge], ?_, by simp [hedge, hwrite], ?_,
    by simp [hedge], by simp [hedge]⟩
  · rw [hsensor, finished_clean_bytes _ _ herr, hedge]
    rfl
  · rw [hsensor]
    rcases finished_clean_error Config.params.logic1 (s.pb.write (pulseDelta cnt s.ref)) herr with h | h <;> simp [h]

/-- The timeout first: it records TIMEOUT without decoding, and the edge changes nothing, its sample lost. -/
theorem tmo_then_edge (cnt : Sample) {s : State} {i : InstIx} (hacq : s.acq ≠ .polling) (hact : s.active = some i) :
    ∃ u, exec .tmo s = .next u ∧ exec (.edge cnt) u = .next u ∧ u.acq = .timedOut ∧
      (u.sensor i).bytes = (s.sensor i).bytes ∧ u.pb = s.pb ∧ (u.sensor i).error = .timeout ∧
      u.relT = s.relT + 1 ∧ u.relG = s.relG + 1 := by
  have htmo := timeout_some (p := Config.params) hact
  have hsensor := timeout_sensor (p := Config.params) hact i
  rw [if_pos rfl] at hsensor
  have hstray : exec (.edge cnt) (timeout Config.params s) = .next (timeout Config.params s) :=
    exec_edge_stray cnt (by simp [htmo]) (by simp [htmo])
  exact ⟨_, (exec_tmo_next ..).mpr ⟨hacq, rfl⟩, hstray, by simp [htmo], by rw [hsensor], by simp [htmo],
    by rw [hsensor], by simp [htmo], by simp [htmo]⟩

/-- Settles O21: in either order the first callback clears `ACTIVE`, so the second one is stray. -/
theorem edgeAndTimeoutRaceTearsDownOnce : Obligations.EdgeAndTimeoutRaceTearsDownOnce :=
  fun cnt _ _ hacq hact hcur herr => ⟨edge_then_tmo cnt hacq hact hcur herr, tmo_then_edge cnt hacq hact⟩

end Sys2Proof.Machine
end

