-- ==== Sys2Proof/Proofs/Decode.lean ====
section
/-! PROOFS. DECODE and its frame (spec/43_bit_decoder.md R154 to R156). -/

namespace Sys2Proof.Machine

/-- Settles O32: `decodeInto_eq` names the one instance that DECODE writes, and `decoded` gives it the stated fields,
since `Frame.sum` is by definition the sum of the four data bytes. -/
theorem decodeWritesBytesAndChecksumErrorOnly : Obligations.DecodeWritesBytesAndChecksumErrorOnly :=
  fun l s i => decodeInto_eq l i s

end Sys2Proof.Machine
end

