-- ==== Sys2Proof/Proofs/Encoding.lean ====
section
/-! PROOFS. The event words (spec/30_encoding.md section 4): the two round trips of encoder and decoder, the match and
mask table, and the operands as fields of the word. -/

namespace Sys2Proof

/-! ## The fields of a spelled word -/

@[simp] theorem opField_formatC (op : BitVec 4) (i : InstIx) (tmr : Bool) (pin : Pin) :
    opField (formatC op i tmr pin) = op.toNat := by rw [opField, formatC_op]

@[simp] theorem instField_formatC (op : BitVec 4) (i : InstIx) (tmr : Bool) (pin : Pin) :
    instField (formatC op i tmr pin) = i := by rw [instField, formatC_inst]

@[simp] theorem opField_formatR (op : BitVec 4) (i : InstIx) (cnt0 : Sample) (tok : Bool) :
    opField (formatR op i cnt0 tok) = op.toNat := by rw [opField, formatR_op]

@[simp] theorem instField_formatR (op : BitVec 4) (i : InstIx) (cnt0 : Sample) (tok : Bool) :
    instField (formatR op i cnt0 tok) = i := by rw [instField, formatR_inst]

@[simp] theorem opField_formatE (op : BitVec 4) (val : Sample) : opField (formatE op val) = op.toNat := by
  rw [opField, formatE_op]

@[simp] theorem opField_formatA (op : BitVec 4) (i : InstIx) : opField (formatA op i) = op.toNat := by
  rw [opField, formatA_op]

@[simp] theorem instField_formatA (op : BitVec 4) (i : InstIx) : instField (formatA op i) = i := by
  rw [instField, formatA_inst]

/-! ## The round trip from the operation -/

/-- The decoder takes back what the encoder spelled: every field of a format reads as the operand put into it, and the
must-be-zero bits of the format are zero. -/
theorem decode_encode (i : Instr) : decode (encode i) = .ok i := by
  cases i with
  | cfg => simp [encode, decode, whenZero, formatC_zero, pinField, formatC_pin, formatC_tmr]
  | read => simp [encode, decode, whenZero, formatR_zero, cnt0Field, formatR_cnt0, formatR_tok]
  | edge => simp [encode, decode, whenZero, formatE_zero, valField, formatE_val]
  | tmo => decide
  | poll lvl => cases lvl <;> decide
  | isok => simp [encode, decode, whenZero, formatA_zero]
  | temp => simp [encode, decode, whenZero, formatA_zero]
  | hum => simp [encode, decode, whenZero, formatA_zero]
  | rdw => simp [encode, decode, whenZero, formatR_zero, cnt0Field, formatR_cnt0, formatR_tok]

/-- Every instance index is below 16, so no operation is ill formed on this machine. -/
theorem wellFormed_all (i : Instr) : i.wellFormed = true := by
  unfold Instr.wellFormed Instr.wellFormedFor
  cases i.inst? with
  | none => rfl
  | some k => exact decide_eq_true k.isLt

/-- Settles O1: well-formedness is the type's own bound, and the round trip goes through the fields of each format. -/
theorem decodeOfEncodeIsIdentity : Obligations.DecodeOfEncodeIsIdentity :=
  fun i => ⟨wellFormed_all i, decode_encode i⟩

/-! ## The words of the formats as numbers -/

theorem formatC_toNat (op : BitVec 4) (i : InstIx) (tmr : Bool) (pin : Pin) :
    (formatC op i tmr pin).toNat = op.toNat * 2 ^ 28 + i.val * 2 ^ 24 + tmr.toNat * 2 ^ 8 + pin.toNat := by
  simp only [formatC, toNat_append_eq, BitVec.toNat_ofFin, BitVec.toNat_ofBool, BitVec.toNat_ofNat, Nat.zero_mod]
  omega

theorem formatR_toNat (op : BitVec 4) (i : InstIx) (cnt0 : Sample) (tok : Bool) :
    (formatR op i cnt0 tok).toNat = op.toNat * 2 ^ 28 + i.val * 2 ^ 24 + cnt0.toNat * 2 ^ 8 + tok.toNat := by
  simp only [formatR, toNat_append_eq, BitVec.toNat_ofFin, BitVec.toNat_ofBool, BitVec.toNat_ofNat, Nat.zero_mod]
  omega

theorem formatE_toNat (op : BitVec 4) (val : Sample) : (formatE op val).toNat = op.toNat * 2 ^ 28 + val.toNat := by
  simp only [formatE, toNat_append_eq, BitVec.toNat_ofNat, Nat.zero_mod]
  omega

theorem formatA_toNat (op : BitVec 4) (i : InstIx) :
    (formatA op i).toNat = op.toNat * 2 ^ 28 + i.val * 2 ^ 24 := by
  simp only [formatA, toNat_append_eq, BitVec.toNat_ofFin, BitVec.toNat_ofNat, Nat.zero_mod]
  omega

theorem encode_tmo_toNat : (encode .tmo).toNat = 0x30000000 := rfl

theorem encode_poll_toNat (lvl : Bool) : (encode (.poll lvl)).toNat = 0x40000000 + lvl.toNat := by cases lvl <;> rfl

/-! ## What a word that decodes looks like -/

/-- The word has the op code of the operation and zeros where its format has them, and each operand is its field (R82,
R83). -/
def SpelledBy (w : Word) : Instr → Prop
  | .cfg i pin tmr   =>
    opField w = 0 ∧ w.extractLsb' 9 15 = 0#15 ∧ instField w = i ∧ pinField w = pin ∧ tmrField w = tmr
  | .read i tok cnt0 =>
    opField w = 1 ∧ w.extractLsb' 1 7 = 0#7 ∧ instField w = i ∧ tokField w = tok ∧ cnt0Field w = cnt0
  | .edge cnt        => opField w = 2 ∧ w.extractLsb' 16 12 = 0#12 ∧ valField w = cnt
  | .tmo             => opField w = 3 ∧ w.extractLsb' 0 28 = 0#28
  | .poll lvl        => opField w = 4 ∧ w.extractLsb' 1 27 = 0#27 ∧ w.getLsbD 0 = lvl
  | .isok i          => opField w = 5 ∧ w.extractLsb' 0 24 = 0#24 ∧ instField w = i
  | .temp i          => opField w = 6 ∧ w.extractLsb' 0 24 = 0#24 ∧ instField w = i
  | .hum i           => opField w = 7 ∧ w.extractLsb' 0 24 = 0#24 ∧ instField w = i
  | .rdw i tok cnt0  =>
    opField w = 8 ∧ w.extractLsb' 1 7 = 0#7 ∧ instField w = i ∧ tokField w = tok ∧ cnt0Field w = cnt0

theorem whenZero_ok (w : Word) (lo len : Nat) (i j : Instr) :
    whenZero w lo len i = .ok j ↔ w.extractLsb' lo len = 0#len ∧ i = j := by
  unfold whenZero
  split <;> simp [*]

/-- The inversion of the decoder: it answers an operation exactly for the words that spell it. -/
theorem decode_ok_iff (w : Word) (i : Instr) : decode w = .ok i ↔ SpelledBy w i := by
  constructor
  · intro h
    unfold decode at h
    split at h
    case h_10 => cases h
    all_goals
      rename_i hop
      obtain ⟨hzero, rfl⟩ := (whenZero_ok ..).mp h
      simp [SpelledBy, hop, hzero]
  · intro h
    cases i <;> simp only [SpelledBy] at h <;> simp only [decode, whenZero_ok, h, true_and]

/-! ## The round trip from the word -/

theorem opField_eq (w : Word) : opField w = w.toNat / 2 ^ 28 % 2 ^ 4 := toNat_field w 28 4

theorem instField_val (w : Word) : (instField w).val = w.toNat / 2 ^ 24 % 2 ^ 4 := toNat_field w 24 4

/-- A zero field as a number. -/
theorem field_zero {w : Word} {lo len : Nat} (h : w.extractLsb' lo len = 0#len) : w.toNat / 2 ^ lo % 2 ^ len = 0 := by
  rw [← toNat_field, h]
  rfl

theorem formatC_fields {w : Word} (op : BitVec 4) (hop : opField w = op.toNat) (hz : w.extractLsb' 9 15 = 0#15) :
    formatC op (instField w) (tmrField w) (pinField w) = w := by
  apply BitVec.eq_of_toNat_eq
  rw [formatC_toNat, ← hop, opField_eq, instField_val, tmrField, toNat_bit, pinField, toNat_field]
  have := field_zero hz
  have := w.isLt
  omega

theorem formatR_fields {w : Word} (op : BitVec 4) (hop : opField w = op.toNat) (hz : w.extractLsb' 1 7 = 0#7) :
    formatR op (instField w) (cnt0Field w) (tokField w) = w := by
  apply BitVec.eq_of_toNat_eq
  rw [formatR_toNat, ← hop, opField_eq, instField_val, tokField, toNat_bit, cnt0Field, toNat_field]
  have := field_zero hz
  have := w.isLt
  omega

theorem formatE_fields {w : Word} (op : BitVec 4) (hop : opField w = op.toNat) (hz : w.extractLsb' 16 12 = 0#12) :
    formatE op (valField w) = w := by
  apply BitVec.eq_of_toNat_eq
  rw [formatE_toNat, ← hop, opField_eq, valField, toNat_field]
  have := field_zero hz
  have := w.isLt
  omega

theorem formatA_fields {w : Word} (op : BitVec 4) (hop : opField w = op.toNat) (hz : w.extractLsb' 0 24 = 0#24) :
    formatA op (instField w) = w := by
  apply BitVec.eq_of_toNat_eq
  rw [formatA_toNat, ← hop, opField_eq, instField_val]
  have := field_zero hz
  have := w.isLt
  omega

/-- A word is spelled by one operation at most, and that operation's word is the word: its fields and its zeros fill
all 32 bits. -/
theorem encode_of_spelledBy {w : Word} {i : Instr} (h : SpelledBy w i) : encode i = w := by
  cases i with
  | cfg => obtain ⟨hop, hz, rfl, rfl, rfl⟩ := h; exact formatC_fields 0#4 hop hz
  | read => obtain ⟨hop, hz, rfl, rfl, rfl⟩ := h; exact formatR_fields 1#4 hop hz
  | edge => obtain ⟨hop, hz, rfl⟩ := h; exact formatE_fields 2#4 hop hz
  | tmo =>
    obtain ⟨hop, hz⟩ := h
    apply BitVec.eq_of_toNat_eq
    rw [encode_tmo_toNat]
    rw [opField_eq] at hop
    have := field_zero hz
    omega
  | poll =>
    obtain ⟨hop, hz, rfl⟩ := h
    apply BitVec.eq_of_toNat_eq
    rw [encode_poll_toNat, toNat_bit]
    rw [opField_eq] at hop
    have := field_zero hz
    omega
  | isok => obtain ⟨hop, hz, rfl⟩ := h; exact formatA_fields 5#4 hop hz
  | temp => obtain ⟨hop, hz, rfl⟩ := h; exact formatA_fields 6#4 hop hz
  | hum => obtain ⟨hop, hz, rfl⟩ := h; exact formatA_fields 7#4 hop hz
  | rdw => obtain ⟨hop, hz, rfl, rfl, rfl⟩ := h; exact formatR_fields 8#4 hop hz

/-- Settles O2: the inversion of the decoder gives the fields, and the fields give the word. -/
theorem encodeOfDecodeIsIdentity : Obligations.EncodeOfDecodeIsIdentity :=
  fun w i h => encode_of_spelledBy ((decode_ok_iff w i).mp h)

/-! ## The match and mask table (R84) -/

/-- What a row fixes of a word: any field that lies under its mask. -/
theorem OpRow.field_of_spells {r : OpRow} {w : Word} (h : r.spells w = true) {lo len : Nat}
    (hmask : r.mask.extractLsb' lo len = BitVec.allOnes len) :
    w.extractLsb' lo len = r.pattern.extractLsb' lo len := by
  rw [← beq_iff_eq.mp h, BitVec.extractLsb'_and, hmask, BitVec.and_allOnes]

/-- The word of an operation is spelled by its row. -/
theorem row_spells_encode (i : Instr) : i.row.spells (encode i) = true := by
  cases i with
  | cfg => exact Laws.EncodesRow.cfg ..
  | read => exact Laws.EncodesRow.read ..
  | edge => exact Laws.EncodesRow.edge ..
  | tmo => exact Laws.EncodesRow.tmo
  | poll => exact Laws.EncodesRow.poll ..
  | isok => exact Laws.EncodesRow.isok ..
  | temp => exact Laws.EncodesRow.temp ..
  | hum => exact Laws.EncodesRow.hum ..
  | rdw => exact Laws.EncodesRow.rdw ..

theorem row_mem_opTable (i : Instr) : i.row ∈ opTable := by cases i <;> simp [Instr.row, opTable]

theorem row_mnemonic (i : Instr) : i.row.mnemonic = i.mnemonic := by cases i <;> rfl

theorem row_spells_of_decode {w : Word} {i : Instr} (h : decode w = .ok i) : i.row.spells w = true := by
  have := row_spells_encode i
  rwa [encodeOfDecodeIsIdentity w i h] at this

/-- A word that a row spells decodes: the row fixes its op code and its must-be-zero bits. -/
theorem decode_of_spells {w : Word} {r : OpRow} (hr : r ∈ opTable) (h : r.spells w = true) : ∃ i, decode w = .ok i := by
  have hop : ∀ {p : BitVec 4}, r.mask.extractLsb' 28 4 = BitVec.allOnes 4 → r.pattern.extractLsb' 28 4 = p →
      opField w = p.toNat := by
    intro p hm hp
    rw [opField, r.field_of_spells h hm, hp]
  simp only [opTable, List.mem_cons, List.not_mem_nil, or_false] at hr
  rcases hr with rfl | rfl | rfl | rfl | rfl | rfl | rfl | rfl | rfl
  · exact ⟨.cfg .., (decode_ok_iff ..).mpr ⟨hop (by decide) rfl, OpRow.field_of_spells h (by decide), rfl, rfl, rfl⟩⟩
  · exact ⟨.read .., (decode_ok_iff ..).mpr ⟨hop (by decide) rfl, OpRow.field_of_spells h (by decide), rfl, rfl, rfl⟩⟩
  · exact ⟨.edge .., (decode_ok_iff ..).mpr ⟨hop (by decide) rfl, OpRow.field_of_spells h (by decide), rfl⟩⟩
  · exact ⟨.tmo, (decode_ok_iff ..).mpr ⟨hop (by decide) rfl, OpRow.field_of_spells h (by decide)⟩⟩
  · exact ⟨.poll .., (decode_ok_iff ..).mpr ⟨hop (by decide) rfl, OpRow.field_of_spells h (by decide), rfl⟩⟩
  · exact ⟨.isok .., (decode_ok_iff ..).mpr ⟨hop (by decide) rfl, OpRow.field_of_spells h (by decide), rfl⟩⟩
  · exact ⟨.temp .., (decode_ok_iff ..).mpr ⟨hop (by decide) rfl, OpRow.field_of_spells h (by decide), rfl⟩⟩
  · exact ⟨.hum .., (decode_ok_iff ..).mpr ⟨hop (by decide) rfl, OpRow.field_of_spells h (by decide), rfl⟩⟩
  · exact ⟨.rdw .., (decode_ok_iff ..).mpr ⟨hop (by decide) rfl, OpRow.field_of_spells h (by decide), rfl, rfl, rfl⟩⟩

theorem decodes_iff_wordWellFormed (w : Word) : (∃ i, decode w = .ok i) ↔ wordWellFormed w = true := by
  simp only [wordWellFormed, List.any_eq_true]
  constructor
  · rintro ⟨i, h⟩
    exact ⟨i.row, row_mem_opTable i, row_spells_of_decode h⟩
  · rintro ⟨r, hr, h⟩
    exact decode_of_spells hr h

/-- Every row fixes the op code, and no two rows fix it alike. -/
theorem row_eq_of_spells {w : Word} {r r' : OpRow} (hr : r ∈ opTable) (hr' : r' ∈ opTable) (h : r.spells w = true)
    (h' : r'.spells w = true) : r = r' := by
  have hmask : ∀ r ∈ opTable, r.mask.extractLsb' 28 4 = BitVec.allOnes 4 := by decide
  have hinj : ∀ r ∈ opTable, ∀ r' ∈ opTable, r.pattern.extractLsb' 28 4 = r'.pattern.extractLsb' 28 4 → r = r' := by
    decide
  exact hinj r hr r' hr' ((r.field_of_spells h (hmask r hr)).symm.trans (r'.field_of_spells h' (hmask r' hr')))

theorem decode_reserved {w : Word} (h : 9 ≤ opField w) : decode w = .error .reservedOp := by
  unfold decode
  split
  case h_10 => rfl
  all_goals omega

/-- Op code, mnemonic and issuer of the operation that a word spells. -/
theorem op_row_of_spelledBy {w : Word} {i : Instr} (h : SpelledBy w i) :
    (opField w, i.mnemonic, i.agent) ∈
      ([(0, "CFG", .host), (1, "READ", .host), (2, "EDGE", .line), (3, "TMO", .timer), (4, "POLL", .line),
        (5, "ISOK", .host), (6, "TEMP", .host), (7, "HUM", .host), (8, "RDW", .host)] :
        List (Nat × String × Agent)) := by
  cases i <;> simp only [SpelledBy] at h <;> simp [h, Instr.mnemonic, Instr.agent]

/-- Settles O3: a row's mask covers the op code and the must-be-zero bits, which is what the decoder tests. -/
theorem decoderAgreesWithMatchMaskTable : Obligations.DecoderAgreesWithMatchMaskTable :=
  ⟨decodes_iff_wordWellFormed,
    fun _ i h => ⟨row_mem_opTable i, row_mnemonic i, row_spells_of_decode h⟩,
    fun _ _ _ => row_eq_of_spells,
    fun _ => decode_reserved,
    fun w i h => op_row_of_spelledBy ((decode_ok_iff w i).mp h)⟩

/-! ## The operands (R82, R83) -/

theorem tmrField_toNat (w : Word) : (tmrField w).toNat = w.toNat / 2 ^ 8 % 2 := toNat_bit w 8

theorem cnt0Field_toNat (w : Word) : (cnt0Field w).toNat = w.toNat / 2 ^ 8 % 2 ^ 16 := toNat_field w 8 16

theorem lowBit_toNat (w : Word) : (w.getLsbD 0).toNat = w.toNat % 2 := by rw [toNat_bit, pow_zero, Nat.div_one]

theorem lowField_toNat (w : Word) (n : Nat) : (w.extractLsb' 0 n).toNat = w.toNat % 2 ^ n := by
  rw [toNat_field, pow_zero, Nat.div_one]

/-- Settles O55: the inversion of the decoder names each operand's field, and the number of a concatenation is the sum
of its shifted parts. -/
theorem operandsAreTheirFields : Obligations.OperandsAreTheirFields := by
  refine ⟨fun w op h => ?_, fun op => ?_⟩
  · have hs := (decode_ok_iff w op).mp h
    cases op with
    | cfg =>
      obtain ⟨-, -, rfl, rfl, rfl⟩ := hs
      exact ⟨instField_val w, lowField_toNat w 8, tmrField_toNat w⟩
    | read =>
      obtain ⟨-, -, rfl, rfl, rfl⟩ := hs
      exact ⟨instField_val w, cnt0Field_toNat w, lowBit_toNat w⟩
    | edge => obtain ⟨-, -, rfl⟩ := hs; exact lowField_toNat w 16
    | tmo => rw [← encode_of_spelledBy hs]; rfl
    | poll => obtain ⟨-, -, rfl⟩ := hs; exact lowBit_toNat w
    | isok => obtain ⟨-, -, rfl⟩ := hs; exact instField_val w
    | temp => obtain ⟨-, -, rfl⟩ := hs; exact instField_val w
    | hum => obtain ⟨-, -, rfl⟩ := hs; exact instField_val w
    | rdw =>
      obtain ⟨-, -, rfl, rfl, rfl⟩ := hs
      exact ⟨instField_val w, cnt0Field_toNat w, lowBit_toNat w⟩
  · cases op with
    | tmo => exact encode_tmo_toNat
    | poll lvl => exact encode_poll_toNat lvl
    | _ => simp [encode, formatC_toNat, formatR_toNat, formatE_toNat, formatA_toNat]

/-- Settles O4: the decoder evaluates on each of the thirteen words. -/
theorem wordsOfTheSpecDecode : Obligations.WordsOfTheSpecDecode := by
  unfold Obligations.WordsOfTheSpecDecode
  decide

end Sys2Proof
end

