-- ==== Sys2Proof/Proofs/Effects.lean ====
section
/-! PROOFS. Everything an operation can do, said once: the next state of each operation in each of its cases, written
out. The frames, the invariant and the rules about whole steps are read off these cases. -/

namespace Sys2Proof.Machine

/-- What READ (and RDW before it waits) can do: arm, abort with NO_TIMER, or start the polling loop (R112, R113,
R132). -/
inductive Starts (s : State) (i : InstIx) : Bool → Sample → State → Prop
  | arms (hTimer : (s.sensor i).hasTimer = true) (cnt0 : Sample) :
      Starts s i true cnt0
        { s.setSensor i { s.sensor i with inProgress := true, error := .none } with
          pb := PulseBuffer.empty, timerHeld := true, irqReg := true, ref := cnt0, active := some i, acq := .armed
          out := s.out ++ handshakeTrace (s.sensor i).pin ++ armTrace Config.params (s.sensor i).pin }
  | aborts (hTimer : (s.sensor i).hasTimer = true) (cnt0 : Sample) :
      Starts s i false cnt0
        { s.setSensor i { s.sensor i with inProgress := false, error := .noTimer } with
          pb := PulseBuffer.empty, acq := .idle, hostWait := if s.hostWait = some i then none else s.hostWait
          out := s.out ++ handshakeTrace (s.sensor i).pin }
  | polls (hTimer : (s.sensor i).hasTimer = false) (tok : Bool) (cnt0 : Sample) :
      Starts s i tok cnt0
        { s.setSensor i { s.sensor i with inProgress := true, error := .none } with
          pb := PulseBuffer.empty, hicnt := 0, iter := 0, pinst := some i, acq := .polling
          out := s.out ++ handshakeTrace (s.sensor i).pin ++ [.lineDrv (s.sensor i).pin .inputNoPull] }

theorem starts_startRead (s : State) (i : InstIx) (tok : Bool) (cnt0 : Sample) :
    Starts s i tok cnt0 (startRead Config.params i tok cnt0 s) := by
  cases hTimer : (s.sensor i).hasTimer with
  | false => rw [startRead_polls hTimer]; exact .polls hTimer tok cnt0
  | true =>
    cases tok with
    | true => rw [startRead_arms hTimer]; exact .arms hTimer cnt0
    | false => rw [startRead_aborts hTimer]; exact .aborts hTimer cnt0

/-- Whether an iteration ends the polling loop (R134, R136, R138). -/
def PollStops (lvl : Bool) (s : State) : Prop := 41 ≤ (capturePoll lvl s).pb.cur ∨ s.iter + 1 = 10000

/-- The next state of an operation, case by case. -/
inductive Effect (s : State) : Instr → State → Prop
  | configures (i : InstIx) (pin : Pin) (tmr : Bool) (hNew : (s.sensor i).configured = false) :
      Effect s (.cfg i pin tmr) (s.setSensor i
        { s.sensor i with configured := true, pin := pin, hasTimer := tmr, inProgress := false, error := .none })
  | reads {i : InstIx} {tok : Bool} {cnt0 : Sample} {t : State} (h : Starts s i tok cnt0 t) :
      Effect s (.read i tok cnt0) t
  | readsAndWaits {i : InstIx} {tok : Bool} {cnt0 : Sample} {t : State} (h : Starts s i tok cnt0 t) :
      Effect s (.rdw i tok cnt0) { t with hostWait := if (t.sensor i).inProgress then some i else none }
  | strayEdge (cnt : Sample) (hStray : s.active = none) : Effect s (.edge cnt) s
  | edgeStores (cnt : Sample) {i : InstIx} (hActive : s.active = some i)
      (hMore : (s.pb.write (pulseDelta cnt s.ref)).cur < 41) :
      Effect s (.edge cnt)
        { s with pb := s.pb.write (pulseDelta cnt s.ref), ref := cnt
                 acq := if s.acq = .armed then .sampling else s.acq }
  | edgeCompletes (cnt : Sample) {i : InstIx} (hActive : s.active = some i)
      (hLast : 41 ≤ (s.pb.write (pulseDelta cnt s.ref)).cur) :
      Effect s (.edge cnt)
        { s.setSensor i (finished Config.logic1 (s.pb.write (pulseDelta cnt s.ref)) (s.sensor i)) with
          pb := s.pb.write (pulseDelta cnt s.ref), ref := cnt, acq := .complete
          timerHeld := false, irqReg := false, relT := s.relT + 1, relG := s.relG + 1, out := s.out ++ releaseTrace
          active := none, hostWait := if s.hostWait = some i then none else s.hostWait }
  | strayTmo (hStray : s.active = none) : Effect s .tmo s
  | timesOut {i : InstIx} (hActive : s.active = some i) :
      Effect s .tmo
        { s.setSensor i { s.sensor i with error := .timeout, inProgress := false } with
          acq := .timedOut, timerHeld := false, irqReg := false, relT := s.relT + 1, relG := s.relG + 1
          out := s.out ++ releaseTrace, active := none
          hostWait := if s.hostWait = some i then none else s.hostWait }
  | pollGoesOn (lvl : Bool) (hOn : ¬ PollStops lvl s) :
      Effect s (.poll lvl)
        { s with pb := (capturePoll lvl s).pb, hicnt := (capturePoll lvl s).hicnt, iter := s.iter + 1 }
  | pollUnowned (lvl : Bool) (hStop : PollStops lvl s) (hNone : s.pinst = none) :
      Effect s (.poll lvl)
        { s with pb := (capturePoll lvl s).pb, hicnt := (capturePoll lvl s).hicnt, iter := s.iter + 1 }
  | pollEnds (lvl : Bool) (hStop : PollStops lvl s) {i : InstIx} (hPinst : s.pinst = some i) :
      Effect s (.poll lvl)
        { s.setSensor i (pollFinished Config.params (capturePoll lvl s).pb (s.sensor i)) with
          pb := (capturePoll lvl s).pb, hicnt := (capturePoll lvl s).hicnt, iter := s.iter + 1
          acq := if (capturePoll lvl s).pb.cur < 41 then .timedOut else .complete
          pinst := none, hostWait := if s.hostWait = some i then none else s.hostWait }
  | isok (i : InstIx) (o : Output) (d : Nat) : Effect s (.isok i) { s with out := s.out ++ [o], draws := d }
  | temp (i : InstIx) (o : Output) (d : Nat) : Effect s (.temp i) { s with out := s.out ++ [o], draws := d }
  | hum (i : InstIx) (o : Output) (d : Nat) : Effect s (.hum i) { s with out := s.out ++ [o], draws := d }

theorem effect_edge (s : State) (cnt : Sample) : Effect s (.edge cnt) (edge Config.params cnt s) := by
  cases hActive : s.active with
  | none => rw [edge_none cnt hActive]; exact .strayEdge cnt hActive
  | some i =>
    rcases edge_cases Config.params cnt hActive with ⟨hMore, h⟩ | ⟨hLast, h⟩
    · rw [h]; exact .edgeStores cnt hActive hMore
    · rw [h]; exact .edgeCompletes cnt hActive hLast

theorem effect_timeout (s : State) : Effect s .tmo (timeout Config.params s) := by
  cases hActive : s.active with
  | none => rw [timeout_none hActive]; exact .strayTmo hActive
  | some i => rw [timeout_some hActive]; exact .timesOut hActive

theorem effect_poll (s : State) (lvl : Bool) : Effect s (.poll lvl) (poll Config.params lvl s) := by
  rcases poll_cases Config.params lvl s with ⟨hOn, h⟩ | ⟨hStop, ⟨hNone, h⟩ | ⟨i, hPinst, h⟩⟩
  · rw [h]; exact .pollGoesOn lvl hOn
  · rw [h]; exact .pollUnowned lvl hStop hNone
  · rw [h]; exact .pollEnds lvl hStop hPinst

theorem effect_answer {op : Instr} {s : State} (h : ∀ o d, Effect s op { s with out := s.out ++ [o], draws := d })
    (i : InstIx) (free : Nat → Output) (known : Output) : Effect s op (answer i free known s) := by
  obtain ⟨o, d, e, -⟩ := answer_writes i free known s
  rw [e]
  exact h o d

/-- The inversion of `exec`: an operation that answers a next state was admitted, and the state is one of the cases. -/
theorem exec_next {op : Instr} {s t : State} (h : exec op s = .next t) : Admits s op ∧ Effect s op t := by
  cases op with
  | cfg => obtain ⟨ha, rfl⟩ := (exec_cfg_next ..).mp h; exact ⟨ha, .configures _ _ _ ha.2⟩
  | read => obtain ⟨ha, rfl⟩ := (exec_read_next ..).mp h; exact ⟨ha, .reads (starts_startRead ..)⟩
  | edge => obtain ⟨ha, rfl⟩ := (exec_edge_next ..).mp h; exact ⟨ha, effect_edge ..⟩
  | tmo => obtain ⟨ha, rfl⟩ := (exec_tmo_next ..).mp h; exact ⟨ha, effect_timeout s⟩
  | poll => obtain ⟨ha, rfl⟩ := (exec_poll_next ..).mp h; exact ⟨ha, effect_poll ..⟩
  | isok => obtain ⟨ha, rfl⟩ := (exec_isok_next ..).mp h; exact ⟨ha, effect_answer (.isok _) ..⟩
  | temp => obtain ⟨ha, rfl⟩ := (exec_temp_next ..).mp h; exact ⟨ha, effect_answer (.temp _) ..⟩
  | hum => obtain ⟨ha, rfl⟩ := (exec_hum_next ..).mp h; exact ⟨ha, effect_answer (.hum _) ..⟩
  | rdw => obtain ⟨ha, rfl⟩ := (exec_rdw_next ..).mp h; exact ⟨ha, .readsAndWaits (starts_startRead ..)⟩

/-! ## The instance that an operation writes -/

/-- What READ leaves in the fields of its instance: aborted with NO_TIMER, or in progress (R113, R171). -/
def startedSensor (tok : Bool) (x : SensorInstance) : SensorInstance :=
  if x.hasTimer && !tok then { x with inProgress := false, error := .noTimer }
  else { x with inProgress := true, error := .none }

theorem startedSensor_configured (tok : Bool) (x : SensorInstance) :
    (startedSensor tok x).configured = x.configured := by
  unfold startedSensor; split <;> rfl

theorem startedSensor_pin (tok : Bool) (x : SensorInstance) : (startedSensor tok x).pin = x.pin := by
  unfold startedSensor; split <;> rfl

theorem startedSensor_hasTimer (tok : Bool) (x : SensorInstance) : (startedSensor tok x).hasTimer = x.hasTimer := by
  unfold startedSensor; split <;> rfl

theorem startedSensor_inProgress (tok : Bool) (x : SensorInstance) :
    (startedSensor tok x).inProgress = (!x.hasTimer || tok) := by
  cases hTimer : x.hasTimer <;> cases tok <;> simp [startedSensor, hTimer]

theorem startedSensor_error_of_inProgress {tok : Bool} {x : SensorInstance}
    (h : (startedSensor tok x).inProgress = true) : (startedSensor tok x).error = .none := by
  unfold startedSensor at h ⊢
  split at h
  · cases h
  · next hc => rw [if_neg hc]

theorem Starts.sensor_eq {s t : State} {i : InstIx} {tok : Bool} {c : Sample} (h : Starts s i tok c t) (j : InstIx) :
    t.sensor j = if i = j then startedSensor tok (s.sensor i) else s.sensor j := by
  cases h with
  | arms hTimer | aborts hTimer | polls hTimer =>
    simp only [startedSensor, hTimer]
    exact sensor_of_write rfl j

theorem Starts.sensor_self {s t : State} {i : InstIx} {tok : Bool} {c : Sample} (h : Starts s i tok c t) :
    t.sensor i = startedSensor tok (s.sensor i) := by
  rw [h.sensor_eq, if_pos rfl]

/-- Which instance an operation writes, and what the instance holds then. -/
inductive Writes (s : State) : Instr → InstIx → SensorInstance → Prop
  | configures (i : InstIx) (pin : Pin) (tmr : Bool) (hNew : (s.sensor i).configured = false) :
      Writes s (.cfg i pin tmr) i
        { s.sensor i with configured := true, pin := pin, hasTimer := tmr, inProgress := false, error := .none }
  | starts {op : Instr} (i : InstIx) (tok : Bool) (cnt0 : Sample) (hOp : op = .read i tok cnt0 ∨ op = .rdw i tok cnt0) :
      Writes s op i (startedSensor tok (s.sensor i))
  | finishes (cnt : Sample) {i : InstIx} (hActive : s.active = some i) :
      Writes s (.edge cnt) i (finished Config.logic1 (s.pb.write (pulseDelta cnt s.ref)) (s.sensor i))
  | timesOut {i : InstIx} (hActive : s.active = some i) :
      Writes s .tmo i { s.sensor i with error := .timeout, inProgress := false }
  | pollEnds (lvl : Bool) {i : InstIx} (hPinst : s.pinst = some i) :
      Writes s (.poll lvl) i (pollFinished Config.params (capturePoll lvl s).pb (s.sensor i))

/-- An operation leaves all instances, or writes one and leaves the others. -/
theorem Effect.writes {s t : State} {op : Instr} (h : Effect s op t) :
    (∀ j, t.sensor j = s.sensor j) ∨
      ∃ i x, Writes s op i x ∧ ∀ j, t.sensor j = if i = j then x else s.sensor j := by
  cases h with
  | configures i pin tmr hNew => exact .inr ⟨i, _, .configures i pin tmr hNew, sensor_of_write rfl⟩
  | reads h => exact .inr ⟨_, _, .starts _ _ _ (.inl rfl), h.sensor_eq⟩
  | readsAndWaits h => exact .inr ⟨_, _, .starts _ _ _ (.inr rfl), h.sensor_eq⟩
  | edgeCompletes cnt hActive => exact .inr ⟨_, _, .finishes cnt hActive, sensor_of_write rfl⟩
  | timesOut hActive => exact .inr ⟨_, _, .timesOut hActive, sensor_of_write rfl⟩
  | pollEnds lvl _ hPinst => exact .inr ⟨_, _, .pollEnds lvl hPinst, sensor_of_write rfl⟩
  | strayEdge | edgeStores | strayTmo | pollGoesOn | pollUnowned | isok | temp | hum => exact .inl fun _ => rfl

end Sys2Proof.Machine
end

