-- ==== Sys2Proof/Proofs/Stepping.lean ====
section
/-! PROOFS. The step (spec/20_memory.md R60, spec/00_scope.md R16): which word it takes, when it refuses, and that an
operation is taken exactly when it is admitted. -/

namespace Sys2Proof.Machine

/-! ## The word a step takes (log 1, log 3) -/

theorem dropWord_cons {s : State} {w : Word} {rest : List Word} (h : s.events = w :: rest) :
    dropWord s = { s with events := rest } := by
  rw [dropWord, h, List.tail_cons]

theorem step_nil {s : State} (h : s.events = []) : step s = .next s := by
  simp [step, nextWord, h]

theorem step_of_decode {s : State} {w : Word} {rest : List Word} {i : Instr} (h : s.events = w :: rest)
    (hw : decode w = .ok i) : step s = exec i { s with events := rest } := by
  simp [step, nextWord, h, hw, dropWord_cons h]

theorem step_of_badWord {s : State} {w : Word} {rest : List Word} {e : BadWord} (h : s.events = w :: rest)
    (hw : decode w = .error e) : step s = .refused (badWordRefusal e) := by
  simp [step, nextWord, h, hw]

/-- A run goes on after a refusal in the same state, only the word gone. -/
theorem advance_of_refused {s : State} {w : Word} {rest : List Word} {r : Refusal} (h : s.events = w :: rest)
    (hr : step s = .refused r) : advance s = { s with events := rest } := by
  simp [advance, hr, dropWord_cons h]

/-- A step that answers a next state had no word to take, or ran the operation its word spells. -/
theorem step_next {s t : State} (h : step s = .next t) :
    s = t ∨ ∃ op, exec op (dropWord s) = .next t := by
  unfold step at h
  split at h
  · exact .inl (by simpa using h)
  · split at h
    · exact .inr ⟨_, h⟩
    · cases h

/-- Settles O6: `step_of_decode` and `step_nil`. -/
theorem stepRunsTheDecodedOperation : Obligations.StepRunsTheDecodedOperation :=
  ⟨fun _ _ _ _ => step_of_decode, fun _ => step_nil⟩

/-! ## Words that spell nothing (R85) -/

theorem decode_illegal {w : Word} (hw : wordWellFormed w = false) : ∃ e, decode w = .error e := by
  cases h : decode w with
  | error e => exact ⟨e, rfl⟩
  | ok i => rw [(decodes_iff_wordWellFormed w).mp ⟨i, h⟩] at hw; cases hw

/-- An op code below 9 is that of some format, so what is wrong is a must-be-zero bit. -/
theorem decode_error_below_nine {w : Word} {e : BadWord} (hop : opField w < 9) (h : decode w = .error e) :
    e = .mustBeZero := by
  have hzero : ∀ {lo len : Nat} {i : Instr}, whenZero w lo len i = .error e → e = .mustBeZero := by
    intro lo len i h
    unfold whenZero at h
    split at h <;> simp_all
  interval_cases hn : opField w <;> simp only [decode, hn] at h <;> exact hzero h

/-- Settles O5: a word that no row spells does not decode, and the op code tells the two refusals apart. -/
theorem illegalWordIsRefusedAndChangesNothing : Obligations.IllegalWordIsRefusedAndChangesNothing := by
  intro s w rest hs hw
  obtain ⟨e, he⟩ := decode_illegal hw
  refine ⟨fun hop => ?_, fun hop => ?_, advance_of_refused hs (step_of_badWord hs he)⟩
  · exact step_of_badWord hs (decode_reserved hop)
  · exact step_of_badWord hs (decode_error_below_nine hop he ▸ he)

/-! ## Admission (R16) -/

/-- Every operation is an admission test that decides between a step and a refusal. -/
theorem exec_admitted (op : Instr) (s : State) :
    ∃ a t, exec op s = admitted a t ∧ (a = none ↔ Admits s op) := by
  cases op with
  | cfg => exact ⟨_, _, rfl, admitCfg_none ..⟩
  | read => exact ⟨_, _, rfl, admitRead_none ..⟩
  | edge => exact ⟨_, _, rfl, admitCallback_none s⟩
  | tmo => exact ⟨_, _, rfl, admitCallback_none s⟩
  | poll => exact ⟨_, _, rfl, admitPoll_none s⟩
  | isok => exact ⟨_, _, rfl, admitAccessor_none ..⟩
  | temp => exact ⟨_, _, rfl, admitAccessor_none ..⟩
  | hum => exact ⟨_, _, rfl, admitAccessor_none ..⟩
  | rdw => exact ⟨_, _, rfl, admitRead_none ..⟩

theorem exec_next_of_admits {op : Instr} {s : State} (h : Admits s op) : ∃ t, exec op s = .next t := by
  obtain ⟨a, t, he, ha⟩ := exec_admitted op s
  rw [ha.mpr h] at he
  exact ⟨t, he⟩

theorem exec_refused_of_not_admits {op : Instr} {s : State} (h : ¬ Admits s op) : ∃ r, exec op s = .refused r := by
  obtain ⟨a, t, he, ha⟩ := exec_admitted op s
  cases a with
  | none => exact absurd (ha.mp rfl) h
  | some r => exact ⟨r, he⟩

theorem exec_next_iff_admits (op : Instr) (s : State) : (∃ t, exec op s = .next t) ↔ Admits s op :=
  ⟨fun ⟨_, h⟩ => (exec_next h).1, exec_next_of_admits⟩

/-- Settles O8: every operation is an admission test, and the test passes exactly when the operation is admitted. -/
theorem operationIsTakenExactlyWhenAdmitted : Obligations.OperationIsTakenExactlyWhenAdmitted :=
  fun _ _ => ⟨exec_next_of_admits, exec_refused_of_not_admits⟩

/-- Settles O10: an operation is taken exactly when it is admitted, and `Admits` does not read the answers. -/
theorem admissionIgnoresTheEnvironmentsAnswers : Obligations.AdmissionIgnoresTheEnvironmentsAnswers := by
  intro s i tok tok' lvl lvl' c c'
  simp only [exec_next_iff_admits]
  exact ⟨.rfl, .rfl, .rfl, .rfl⟩

/-! ## The polling loop admits only POLL (R133) -/

theorem hostGate_polling {s : State} (h : s.acq = .polling) (rest : Option Refusal) :
    hostGate s rest = some .pollingLoopRuns := by
  simp [hostGate, refuseIf, State.isPolling, h]

theorem admitCallback_polling {s : State} (h : s.acq = .polling) : admitCallback s = some .pollingLoopRuns := by
  simp [admitCallback, refuseIf, State.isPolling, h]

/-- Settles O9: the polling loop is the first reason that every admission test but POLL's names. -/
theorem pollingLoopAdmitsOnlyPoll : Obligations.PollingLoopAdmitsOnlyPoll := by
  intro op s hs hop
  cases op with
  | poll lvl => exact absurd rfl (hop lvl)
  | edge | tmo => exact (admitted_refused ..).mpr (admitCallback_polling hs)
  | _ => exact (admitted_refused ..).mpr (hostGate_polling hs _)

end Sys2Proof.Machine
end

