-- ==== Sys2Proof/Proofs/Invariant.lean ====
section
/-! PROOFS. The invariant of the reachable states (spec/10_state.md R32, spec/20_memory.md R55): it holds at reset and
every step keeps it. -/

namespace Sys2Proof.Machine

/-! ## States with no read in progress -/

/-- Nothing is going on: no read, no owner, nothing held, nobody waits. -/
structure Resting (s : State) : Prop where
  acq : s.acq = .idle ∨ s.acq = .complete ∨ s.acq = .timedOut
  active : s.active = none
  pinst : s.pinst = none
  timerHeld : s.timerHeld = false
  irqReg : s.irqReg = false
  noRead : ∀ i, (s.sensor i).inProgress = false
  hostWait : s.hostWait = none

/-- In a resting state the invariant is about the errors, the buffer and the release counters only. -/
theorem Resting.inv {s : State} (h : Resting s) (hconfig : ∀ i, (s.sensor i).error ≠ .config) (hwf : s.pb.wf)
    (hcur : s.pb.cur ≤ Config.nCapture) (hrel : s.relT = s.relG) : Inv s where
  active_iff := by rcases h.acq with e | e | e <;> simp [e, h.active]
  pinst_iff := by rcases h.acq with e | e | e <;> simp [e, h.pinst]
  active_owner := by simp [h.active]
  pinst_owner := by simp [h.pinst]
  timer_held := by simp [h.timerHeld, h.active]
  irq_held := by simp [h.irqReg, h.active]
  armed_empty := by rcases h.acq with e | e | e <;> simp [e]
  progress_owner := by simp [h.noRead]
  progress_clean := by simp [h.noRead]
  no_config := hconfig
  buffer_wf := hwf
  cur_le := hcur
  wait_progress := by simp [h.hostWait]
  released_equal := hrel

/-- The converse: with no active instance and outside the polling loop the invariant leaves no read in progress. -/
theorem Inv.resting {s : State} (h : Inv s) (hacq : s.acq ≠ .polling) (hactive : s.active = none) : Resting s := by
  have hpinst : s.pinst = none := by simpa [hacq] using h.pinst_iff
  have hnoRead : ∀ i, (s.sensor i).inProgress = false := by
    intro i
    cases hi : (s.sensor i).inProgress with
    | false => rfl
    | true => have := h.progress_owner i hi; simp [hactive, hpinst] at this
  refine ⟨?_, hactive, hpinst, by simp [h.timer_held, hactive], by simp [h.irq_held, hactive], hnoRead, ?_⟩
  · have hidle : s.acq ≠ .armed ∧ s.acq ≠ .sampling := by simpa [hactive] using h.active_iff
    cases hs : s.acq <;> simp [hs] at hidle hacq ⊢
  · cases hw : s.hostWait with
    | none => rfl
    | some i => have := h.wait_progress i hw; simp [hnoRead] at this

/-! ## The owner of the read in progress -/

/-- Instance `i` owns the read in progress: it is the active or the polled one. -/
def Owns (s : State) (i : InstIx) : Prop := s.active = some i ∨ s.pinst = some i

theorem Inv.pinst_none_of_active {s : State} {i : InstIx} (h : Inv s) (hi : s.active = some i) : s.pinst = none := by
  have ha := h.active_iff
  have hp := h.pinst_iff
  cases hs : s.pinst with
  | none => rfl
  | some j => simp [hi] at ha; simp [hs] at hp; simp [hp] at ha

theorem Inv.active_none_of_pinst {s : State} {i : InstIx} (h : Inv s) (hi : s.pinst = some i) : s.active = none := by
  cases hs : s.active with
  | none => rfl
  | some j => have := h.pinst_none_of_active hs; simp [hi] at this

theorem Inv.owner_unique {s : State} {i j : InstIx} (h : Inv s) (hi : Owns s i) (hj : Owns s j) : i = j := by
  rcases hi with hi | hi <;> rcases hj with hj | hj
  · exact Option.some.inj (hi.symm.trans hj)
  · simp [h.pinst_none_of_active hi] at hj
  · simp [h.active_none_of_pinst hi] at hj
  · exact Option.some.inj (hi.symm.trans hj)

/-- No instance but the owner has a read in progress. -/
theorem Inv.noRead_of_owner {s : State} {i j : InstIx} (h : Inv s) (hi : Owns s i) (hne : i ≠ j) :
    (s.sensor j).inProgress = false := by
  cases hj : (s.sensor j).inProgress with
  | false => rfl
  | true => exact absurd (h.owner_unique hi (h.progress_owner j hj)) hne

theorem Inv.owner_inProgress {s : State} {i : InstIx} (h : Inv s) (hi : Owns s i) : (s.sensor i).inProgress = true := by
  rcases hi with hi | hi
  · exact (h.active_owner i hi).1
  · exact (h.pinst_owner i hi).1

/-- The host waits for nothing but the owner's read, so the end of that read frees it. -/
theorem Inv.wait_released {s : State} {i : InstIx} (h : Inv s) (hi : Owns s i) :
    (if s.hostWait = some i then none else s.hostWait) = none := by
  cases hw : s.hostWait with
  | none => simp
  | some j =>
    have := h.owner_unique hi (h.progress_owner j (h.wait_progress j hw))
    simp [this]

/-- The end of the owner's read leaves a resting state, whatever else it writes of the owner. -/
theorem Inv.resting_of_ended {s t : State} {i : InstIx} {x : SensorInstance} (h : Inv s) (hi : Owns s i)
    (hx : x.inProgress = false) (hsensors : t.sensors = (s.setSensor i x).sensors)
    (hwait : t.hostWait = if s.hostWait = some i then none else s.hostWait)
    (hacq : t.acq = .idle ∨ t.acq = .complete ∨ t.acq = .timedOut) (hactive : t.active = none)
    (hpinst : t.pinst = none) (htimer : t.timerHeld = false) (hirq : t.irqReg = false) : Resting t := by
  refine ⟨hacq, hactive, hpinst, htimer, hirq, fun j => ?_, by rw [hwait, h.wait_released hi]⟩
  rw [sensor_of_write hsensors]
  split
  · exact hx
  · next hne => exact h.noRead_of_owner hi hne

/-- No read begins or ends, and nobody starts or stops to wait. -/
structure SameReads (s t : State) : Prop where
  active : t.active = s.active
  pinst : t.pinst = s.pinst
  hostWait : t.hostWait = s.hostWait
  sensors : t.sensors = s.sensors

/-- A callback or an iteration of the polling loop leaves the reads as they are, or ends the only one. -/
theorem Effect.same_or_resting {s t : State} {op : Instr} (he : Effect s op t) (h : Inv s) (hagent : op.agent ≠ .host) :
    SameReads s t ∨ Resting t := by
  cases he with
  | configures | reads | readsAndWaits | isok | temp | hum => exact absurd rfl hagent
  | strayEdge | edgeStores | strayTmo | pollGoesOn | pollUnowned => exact .inl ⟨rfl, rfl, rfl, rfl⟩
  | edgeCompletes _ hActive =>
    exact .inr <| h.resting_of_ended (.inl hActive) rfl rfl rfl (.inr (.inl rfl)) rfl
      (h.pinst_none_of_active hActive) rfl rfl
  | timesOut hActive =>
    exact .inr <| h.resting_of_ended (.inl hActive) rfl rfl rfl (.inr (.inr rfl)) rfl
      (h.pinst_none_of_active hActive) rfl rfl
  | pollEnds lvl _ hPinst =>
    have hactive := h.active_none_of_pinst hPinst
    refine .inr <| h.resting_of_ended (.inr hPinst) rfl rfl rfl ?_ hactive rfl
      (h.timer_held.trans (by simp [hactive])) (h.irq_held.trans (by simp [hactive]))
    dsimp only
    split
    · exact .inr (.inr rfl)
    · exact .inr (.inl rfl)

/-! ## Errors that are recorded -/

theorem decoded_error_config {l : Sample} {b : PulseBuffer} {x : SensorInstance}
    (h : (decoded l b x).error = .config) : x.error = .config := by
  unfold decoded at h
  dsimp only at h
  split at h
  · cases h
  · exact h

theorem finished_error_config {l : Sample} {b : PulseBuffer} {x : SensorInstance}
    (h : (finished l b x).error = .config) : x.error = .config := by
  unfold finished at h
  dsimp only at h
  split at h
  · exact decoded_error_config h
  · exact h

theorem pollFinished_error_config {p : Config.Params} {b : PulseBuffer} {x : SensorInstance}
    (h : (pollFinished p b x).error = .config) : x.error = .config := by
  have h := decoded_error_config h
  split at h
  · cases h
  · exact h

theorem Writes.error_config {s : State} {op : Instr} {i : InstIx} {x : SensorInstance} (h : Writes s op i x)
    (hx : x.error = .config) : (s.sensor i).error = .config := by
  cases h with
  | configures | timesOut => cases hx
  | starts => unfold startedSensor at hx; split at hx <;> cases hx
  | finishes => exact finished_error_config hx
  | pollEnds => exact pollFinished_error_config hx

/-- No operation records CONFIG (R203). -/
theorem Effect.error_config {s t : State} {op : Instr} {j : InstIx} (h : Effect s op t)
    (hj : (t.sensor j).error = .config) : (s.sensor j).error = .config := by
  rcases h.writes with hsame | ⟨i, x, hw, hsensor⟩
  · exact hsame j ▸ hj
  · rw [hsensor] at hj
    split at hj
    · next e => exact e ▸ hw.error_config hj
    · exact hj

/-! ## The buffer -/

theorem capturePoll_wf {s : State} (h : s.pb.wf) (lvl : Bool) : (capturePoll lvl s).pb.wf := by
  rw [capturePoll_pb]
  split
  · exact wf_write h _
  · exact h

theorem Starts.pb_empty {s t : State} {i : InstIx} {tok : Bool} {c : Sample} (h : Starts s i tok c t) :
    t.pb = PulseBuffer.empty := by
  cases h <;> rfl

theorem Effect.keeps_wf {s t : State} {op : Instr} (h : Effect s op t) (hs : s.pb.wf) : t.pb.wf := by
  cases h with
  | reads h => rw [h.pb_empty]; exact wf_empty
  | readsAndWaits h => dsimp only; rw [h.pb_empty]; exact wf_empty
  | edgeStores | edgeCompletes => exact wf_write hs _
  | pollGoesOn | pollUnowned | pollEnds => exact capturePoll_wf hs _
  | configures | strayEdge | strayTmo | timesOut | isok | temp | hum => exact hs

/-- Settles O41: the buffer is emptied, written or left, and each keeps its form. -/
theorem stepKeepsTheBufferWellFormed : Obligations.StepKeepsTheBufferWellFormed := by
  intro s t hs h
  rcases step_next h with rfl | ⟨op, h⟩
  · exact hs
  · exact (exec_next h).2.keeps_wf hs

/-- A write advances the cursor by one at most. -/
theorem write_cur_le (b : PulseBuffer) (v : Sample) : (b.write v).cur ≤ b.cur + 1 := by
  rw [write_cur]; split <;> omega

theorem capturePoll_cur_le (lvl : Bool) (s : State) : (capturePoll lvl s).pb.cur ≤ s.pb.cur + 1 := by
  rw [capturePoll_pb]
  split
  · exact write_cur_le ..
  · omega

/-- `HICNT` counts iterations, so it stays at most `ITER`. -/
theorem capturePoll_hicnt_le {s : State} (h : s.hicnt.toNat ≤ s.iter) (lvl : Bool) :
    (capturePoll lvl s).hicnt.toNat ≤ s.iter + 1 := by
  have hadd : (s.hicnt + 1).toNat ≤ s.hicnt.toNat + 1 := by
    rw [BitVec.toNat_add]; exact Nat.mod_le _ _
  rw [capturePoll_hicnt]
  split
  · omega
  · split
    · simp
    · omega

/-! ## Each case keeps the invariant -/

/-- Rewriting an instance that has no read in progress, before and after. -/
theorem Inv.setSensor_idle {s : State} {i : InstIx} {x : SensorInstance} (h : Inv s)
    (hi : (s.sensor i).inProgress = false) (hx : x.inProgress = false) (herr : x.error ≠ .config) :
    Inv (s.setSensor i x) := by
  have hkeep : ∀ j, (s.sensor j).inProgress = true → (s.setSensor i x).sensor j = s.sensor j := by
    intro j hj
    exact sensor_setSensor_other s x (by rintro rfl; simp [hi] at hj)
  have hback : ∀ j, ((s.setSensor i x).sensor j).inProgress = true → (s.sensor j).inProgress = true := by
    intro j hj
    rw [sensor_setSensor] at hj
    split at hj
    · simp [hx] at hj
    · exact hj
  exact
    { h with
      active_owner := fun j hj => by rw [hkeep j (h.active_owner j hj).1]; exact h.active_owner j hj
      pinst_owner := fun j hj => by rw [hkeep j (h.pinst_owner j hj).1]; exact h.pinst_owner j hj
      progress_owner := fun j hj => h.progress_owner j (hback j hj)
      progress_clean := fun j hj => by rw [hkeep j (hback j hj)]; exact h.progress_clean j (hback j hj)
      no_config := fun j => by
        rw [sensor_setSensor]
        split
        · exact herr
        · exact h.no_config j
      wait_progress := fun j hj => by rw [hkeep j (h.wait_progress j hj)]; exact h.wait_progress j hj }

/-- READ starts from a resting state, so its instance has the only read in progress afterwards, if there is one. -/
theorem Starts.progress_clean {s t : State} {i j : InstIx} {tok : Bool} {c : Sample} (hstart : Starts s i tok c t)
    (hs : Resting s) (hconf : (s.sensor i).configured = true) (hj : (t.sensor j).inProgress = true) :
    i = j ∧ (t.sensor j).configured = true ∧ (t.sensor j).error = .none := by
  rw [hstart.sensor_eq] at hj ⊢
  split at hj
  · next e =>
    rw [if_pos e]
    exact ⟨e, (startedSensor_configured ..).trans hconf, startedSensor_error_of_inProgress hj⟩
  · simp [hs.noRead] at hj

theorem Starts.keeps_inv {s t : State} {i : InstIx} {tok : Bool} {c : Sample} (hstart : Starts s i tok c t)
    (h : Inv s) (hs : Resting s) (hconf : (s.sensor i).configured = true)
    (hconfig : ∀ j, (t.sensor j).error ≠ .config) : Inv t := by
  have hread : (t.sensor i).inProgress = (!(s.sensor i).hasTimer || tok) := by
    rw [hstart.sensor_self, startedSensor_inProgress]
  have hkind : (t.sensor i).hasTimer = (s.sensor i).hasTimer := by
    rw [hstart.sensor_self, startedSensor_hasTimer]
  have hother : ∀ j, i ≠ j → (t.sensor j).inProgress = false := fun j hne => by
    rw [hstart.sensor_eq, if_neg hne, hs.noRead]
  have hclean := fun j => hstart.progress_clean (j := j) hs hconf
  have hwait : ∀ j, s.hostWait ≠ some j := by simp [hs.hostWait]
  cases hstart with
  | arms hTimer =>
    exact
      { active_iff := by simp
        pinst_iff := by simp [hs.pinst]
        active_owner := fun j hj => by
          cases hj
          exact ⟨hread.trans (Bool.or_true _), hkind.trans hTimer, Nat.zero_le _⟩
        pinst_owner := by simp [hs.pinst]
        timer_held := rfl
        irq_held := rfl
        armed_empty := fun _ => rfl
        progress_owner := fun j hj => .inl (congrArg some (hclean j hj).1)
        progress_clean := fun j hj => (hclean j hj).2
        no_config := hconfig
        buffer_wf := wf_empty
        cur_le := Nat.zero_le _
        wait_progress := fun j hj => absurd hj (hwait j)
        released_equal := h.released_equal }
  | aborts hTimer =>
    refine Resting.inv ⟨.inl rfl, hs.active, hs.pinst, hs.timerHeld, hs.irqReg, fun j => ?_, by simp [hs.hostWait]⟩
      hconfig wf_empty (Nat.zero_le _) h.released_equal
    by_cases e : i = j
    · exact e ▸ hread.trans (by rw [hTimer]; rfl)
    · exact hother j e
  | polls hTimer =>
    exact
      { active_iff := by simp [hs.active]
        pinst_iff := by simp
        active_owner := by simp [hs.active]
        pinst_owner := fun j hj => by
          cases hj
          exact ⟨hread.trans (by rw [hTimer]; rfl), hkind.trans hTimer, Nat.zero_lt_succ _, Nat.zero_lt_succ _,
            Nat.zero_le _⟩
        timer_held := hs.timerHeld.trans (by simp [hs.active])
        irq_held := hs.irqReg.trans (by simp [hs.active])
        armed_empty := by simp
        progress_owner := fun j hj => .inr (congrArg some (hclean j hj).1)
        progress_clean := fun j hj => (hclean j hj).2
        no_config := hconfig
        buffer_wf := wf_empty
        cur_le := Nat.zero_le _
        wait_progress := fun j hj => absurd hj (hwait j)
        released_equal := h.released_equal }

theorem Effect.keeps_inv {s t : State} {op : Instr} (he : Effect s op t) (ha : Admits s op) (h : Inv s) : Inv t := by
  have hconfig : ∀ j, (t.sensor j).error ≠ .config := fun j hj => h.no_config j (he.error_config hj)
  have hwf := he.keeps_wf h.buffer_wf
  have hends := he.same_or_resting h
  cases he with
  | configures i pin tmr hNew =>
    refine h.setSensor_idle ?_ rfl (by simp)
    cases hp : (s.sensor i).inProgress with
    | false => rfl
    | true => have := (h.progress_clean i hp).1; simp [hNew] at this
  | reads hstart =>
    obtain ⟨⟨hacq, -⟩, hconf, -, hactive⟩ := ha
    exact hstart.keeps_inv h (h.resting hacq hactive) hconf hconfig
  | readsAndWaits hstart =>
    obtain ⟨⟨hacq, -⟩, hconf, -, hactive⟩ := ha
    have ht := hstart.keeps_inv h (h.resting hacq hactive) hconf hconfig
    refine { ht with wait_progress := fun j hj => ?_ }
    dsimp only at hj
    split at hj
    · next hread => exact Option.some.inj hj ▸ hread
    · cases hj
  | strayEdge | strayTmo => exact h
  | edgeStores cnt hActive hMore =>
    have hacq : (if s.acq = .armed then Acq.sampling else s.acq) = .sampling := by
      rcases h.active_iff.mpr (by simp [hActive]) with e | e <;> simp [e]
    exact
      { h with
        active_iff := by simp [hacq, hActive]
        pinst_iff := by simp [hacq, h.pinst_none_of_active hActive]
        active_owner := fun j hj =>
          ⟨(h.active_owner j hj).1, (h.active_owner j hj).2.1, Nat.le_of_lt_succ hMore⟩
        pinst_owner := by simp [h.pinst_none_of_active hActive]
        armed_empty := by simp [hacq]
        buffer_wf := hwf
        cur_le := Nat.le_of_lt hMore }
  | edgeCompletes cnt hActive =>
    have hrest := (hends Agent.noConfusion).resolve_left fun hsame => by simpa [hActive] using hsame.active
    refine hrest.inv hconfig hwf ?_ (congrArg (· + 1) h.released_equal)
    exact (write_cur_le ..).trans (Nat.succ_le_succ (h.active_owner _ hActive).2.2)
  | timesOut hActive =>
    have hrest := (hends Agent.noConfusion).resolve_left fun hsame => by simpa [hActive] using hsame.active
    exact hrest.inv hconfig hwf h.cur_le (congrArg (· + 1) h.released_equal)
  | pollGoesOn lvl hOn =>
    obtain ⟨hcur, hiter⟩ := not_or.mp hOn
    have hactive : s.active = none := by
      obtain ⟨i, hi⟩ := Option.isSome_iff_exists.mp (h.pinst_iff.mp ha)
      exact h.active_none_of_pinst hi
    exact
      { h with
        active_owner := by simp [hactive]
        pinst_owner := fun j hj => by
          obtain ⟨hread, hTimer, -, hlt, hhi⟩ := h.pinst_owner j hj
          exact ⟨hread, hTimer, Nat.lt_of_not_le hcur, lt_of_le_of_ne hlt hiter, capturePoll_hicnt_le hhi lvl⟩
        armed_empty := fun hacq => by simp [show s.acq = .polling from ha] at hacq
        buffer_wf := hwf
        cur_le := Nat.le_of_not_le hcur }
  | pollUnowned lvl hStop hNone =>
    have := h.pinst_iff.mp ha
    simp [hNone] at this
  | pollEnds lvl hStop hPinst =>
    have hrest := (hends Agent.noConfusion).resolve_left fun hsame => by simpa [hPinst] using hsame.pinst
    refine hrest.inv hconfig hwf ?_ h.released_equal
    exact (capturePoll_cur_le ..).trans (h.pinst_owner _ hPinst).2.2.1
  | isok | temp | hum => exact { h with }

/-- Settles O44: the word that a step takes is no part of the invariant, and each case of the operation's effect keeps
it. -/
theorem stepKeepsTheInvariant : Obligations.StepKeepsTheInvariant := by
  intro s t h hstep
  rcases step_next hstep with rfl | ⟨op, hexec⟩
  · exact h
  · obtain ⟨ha, he⟩ := exec_next hexec
    exact he.keeps_inv ha { h with }

/-! ## The reset state (R240) -/

theorem reset_sensor (i : InstIx) : State.reset.sensor i = SensorInstance.reset i := by
  fin_cases i <;> rfl

theorem resting_reset : Resting State.reset :=
  ⟨.inl rfl, rfl, rfl, rfl, rfl, fun i => by rw [reset_sensor]; rfl, rfl⟩

/-- Settles O45: nothing is going on at reset. -/
theorem resetMeetsTheInvariant : Obligations.ResetMeetsTheInvariant :=
  resting_reset.inv (fun i => by rw [reset_sensor]; simp [SensorInstance.reset]) wf_empty (Nat.zero_le _) rfl

/-- Settles O7: the reset state is written out, and each of its instances is `SensorInstance.reset`. -/
theorem resetStateIsAsSpecified : Obligations.ResetStateIsAsSpecified := by
  refine ⟨fun i => ?_, fun k => ?_, rfl, rfl, rfl, rfl, rfl, rfl, rfl, rfl⟩
  · rw [reset_sensor]
    exact ⟨rfl, rfl, rfl⟩
  · exact empty_entry k.val k.isLt

end Sys2Proof.Machine
end

