-- ==== Sys2Proof/Proofs/HostOperations.lean ====
section
/-! PROOFS. The host's operations (spec/44_host_operations.md): CFG, READ, RDW and the accessors. -/

namespace Sys2Proof.Machine

/-! ## CFG (R170) -/

theorem admitCfg_configured {s : State} {i : InstIx} (hacq : s.acq ≠ .polling) (hwait : s.hostWait = none)
    (hi : (s.sensor i).configured = true) : admitCfg i s = some .alreadyConfigured := by
  simp [admitCfg, hostGate, refuseIf, (isPolling_false s).mpr hacq, hwait, hi]

/-- Settles O11: each admission case of CFG, and its word as a number. -/
theorem configureWritesOneInstance : Obligations.ConfigureWritesOneInstance := by
  intro i pin tmr s
  refine ⟨fun hacq => ?_, fun hacq hwait => ⟨fun hi => ?_, fun hi => ?_⟩, ?_⟩
  · exact pollingLoopAdmitsOnlyPoll _ s hacq (by simp)
  · exact (admitted_refused ..).mpr (admitCfg_configured hacq hwait hi)
  · exact (exec_cfg_next ..).mpr ⟨⟨⟨hacq, hwait⟩, hi⟩, rfl⟩
  · simp [encode, formatC_toNat]

/-! ## READ and RDW (R171, R175) -/

theorem exec_read_of_admits {i : InstIx} {tok : Bool} {cnt0 : Sample} {s : State} (h : Admits s (.read i tok cnt0)) :
    exec (.read i tok cnt0) s = .next (startRead Config.params i tok cnt0 s) :=
  (exec_read_next ..).mpr ⟨h, rfl⟩

/-- RDW is admitted when READ is, and waits exactly while the read it started is in progress. -/
theorem exec_rdw_of_admits {i : InstIx} {tok : Bool} {cnt0 : Sample} {s : State} (h : Admits s (.read i tok cnt0)) :
    exec (.rdw i tok cnt0) s =
      .next { startRead Config.params i tok cnt0 s with
        hostWait := if ((startRead Config.params i tok cnt0 s).sensor i).inProgress = true then some i else none } :=
  (exec_rdw_next ..).mpr ⟨h, rfl⟩

theorem startRead_inProgress (i : InstIx) (tok : Bool) (cnt0 : Sample) (s : State) :
    ((startRead Config.params i tok cnt0 s).sensor i).inProgress = (!(s.sensor i).hasTimer || tok) := by
  rw [(starts_startRead s i tok cnt0).sensor_self, startedSensor_inProgress]

/-- Settles O15: both operations are admitted by one test and take the same step. -/
theorem blockingReadIsReadThenWait : Obligations.BlockingReadIsReadThenWait := by
  intro i tok cnt0 s
  refine ⟨fun h => ⟨_, exec_read_of_admits h, exec_rdw_of_admits h⟩, fun r => ?_⟩
  simp only [exec, execRdw, execRead, admitted_refused]

/-- Settles O12: READ arms by `startRead_arms`, and the read is then in progress, so RDW waits. -/
theorem readWithTimerArms : Obligations.ReadWithTimerArms := by
  intro i cnt0 s h hTimer
  refine ⟨?_, ?_⟩
  · rw [exec_read_of_admits h, startRead_arms hTimer, List.append_assoc]
    rfl
  · rw [exec_rdw_of_admits h, startRead_inProgress, if_pos (Bool.or_true _), startRead_arms hTimer, List.append_assoc]
    rfl

theorem with_hostWait_self {s : State} {w : Option InstIx} (h : s.hostWait = w) : { s with hostWait := w } = s := by
  subst h; rfl

/-- Settles O13: the read is over at once, so RDW does not wait. -/
theorem readWithoutAcquiredTimerAborts : Obligations.ReadWithoutAcquiredTimerAborts := by
  intro i cnt0 s h hTimer
  have hfree : (if s.hostWait = some i then none else s.hostWait) = s.hostWait := by simp [h.1.2]
  have haborts := startRead_aborts (p := Config.params) hTimer cnt0
  rw [hfree] at haborts
  refine ⟨?_, ?_⟩
  · rw [exec_read_of_admits h, haborts]
    rfl
  · rw [exec_rdw_of_admits h, startRead_inProgress, if_neg (by simp [hTimer]), haborts]
    exact congrArg _ (with_hostWait_self h.1.2)

/-- Settles O14: POLL_BEGIN, and the read is in progress, so RDW waits. -/
theorem readWithoutTimerStartsPolling : Obligations.ReadWithoutTimerStartsPolling := by
  intro i tok cnt0 s h hTimer
  refine ⟨?_, ?_⟩
  · rw [exec_read_of_admits h, startRead_polls hTimer, List.append_assoc]
    rfl
  · rw [exec_rdw_of_admits h, startRead_inProgress, if_pos (by simp [hTimer]), startRead_polls hTimer,
      List.append_assoc]
    rfl

/-- A step whose word spells an operation that is not admitted refuses it, and a run goes on without the word. -/
theorem step_not_admitted {s : State} {op : Instr} {rest : List Word} (hs : s.events = encode op :: rest)
    (h : ¬ Admits { s with events := rest } op) :
    (∃ r, step s = .refused r) ∧ advance s = { s with events := rest } := by
  obtain ⟨r, hr⟩ := exec_refused_of_not_admits h
  rw [← step_of_decode hs (decode_encode op)] at hr
  exact ⟨⟨r, hr⟩, advance_of_refused hs hr⟩

/-- Settles O16: READ and RDW are admitted only when no instance is active. -/
theorem secondReadCannotDisturbTheFirst : Obligations.SecondReadCannotDisturbTheFirst := by
  intro s rest i tok cnt0 hactive hs
  rcases hs with hs | hs
  all_goals
    refine step_not_admitted hs fun h => ?_
    have hnone : s.active = none := h.2.2.2
    simp [hnone] at hactive

/-! ## The accessors (R177 to R180) -/

theorem answer_specified {s : State} {i : InstIx} (h : (s.sensor i).inProgress = false) (free : Nat → Output)
    (known : Output) : answer i free known s = { s with out := s.out ++ [known] } := by
  simp [answer, h, State.emit]

theorem answer_unspecified {s : State} {i : InstIx} (h : (s.sensor i).inProgress = true) (free : Nat → Output)
    (known : Output) : answer i free known s = { s with out := s.out ++ [free s.draws], draws := s.draws + 1 } := by
  simp [answer, h, State.emit]

/-- Settles O36: with no read in progress each accessor answers its function of the registers. -/
theorem accessorsReturnTheRegisters : Obligations.AccessorsReturnTheRegisters := by
  intro s i hacq hwait hconf hread
  refine ⟨(exec_isok_next ..).mpr ⟨⟨⟨hacq, hwait⟩, hconf⟩, ?_⟩, (exec_temp_next ..).mpr ⟨⟨⟨hacq, hwait⟩, hconf⟩, ?_⟩,
    (exec_hum_next ..).mpr ⟨⟨⟨hacq, hwait⟩, hconf⟩, ?_⟩⟩
  · exact answer_specified hread ..
  · rw [answer_specified hread, tempTenths_eq_append]
  · rw [answer_specified hread, humTenths_eq_append]

/-- Settles O37: during a read each accessor draws a value. -/
theorem accessorsDuringAReadReturnSomeValue : Obligations.AccessorsDuringAReadReturnSomeValue := by
  intro s i hacq hwait hconf hread
  exact ⟨⟨_, (exec_isok_next ..).mpr ⟨⟨⟨hacq, hwait⟩, hconf⟩, answer_unspecified hread ..⟩⟩,
    ⟨_, (exec_temp_next ..).mpr ⟨⟨⟨hacq, hwait⟩, hconf⟩, answer_unspecified hread ..⟩⟩,
    ⟨_, (exec_hum_next ..).mpr ⟨⟨⟨hacq, hwait⟩, hconf⟩, answer_unspecified hread ..⟩⟩⟩

end Sys2Proof.Machine
end

