-- ==== Sys2Proof/Proofs/Reassembly.lean ====
section
/-! PROOFS. The bit decoder (spec/43_bit_decoder.md): where each frame bit comes from, and what follows for DECODE. -/

namespace Sys2Proof.Machine

/-! ## One byte (R152) -/

/-- A shift-and-insert step moves every bit up by one and puts the new bit at position 0. -/
theorem shiftIn_getLsbD (b : Byte) (bit : Bool) (k : Nat) (hk : k < 8) :
    (shiftIn b bit).getLsbD k = if k = 0 then bit else b.getLsbD (k - 1) := by
  cases k with
  | zero => simp [shiftIn]
  | succ k => simp [shiftIn, hk, BitVec.getLsbD_eq_getElem (show k < 8 by omega)]

/-- After `n` steps the bit that came in last is at position 0, the one before it at position 1, and so on. -/
theorem foldl_shiftIn_getLsbD (f : Nat → Bool) (n k : Nat) (hk : k < 8) (hkn : k < n) :
    ((List.range n).foldl (fun b j => shiftIn b (f j)) 0).getLsbD k = f (n - 1 - k) := by
  induction n generalizing k with
  | zero => omega
  | succ n ih =>
    rw [List.range_succ, List.foldl_append, List.foldl_cons, List.foldl_nil, shiftIn_getLsbD _ _ _ hk]
    split
    · next e => simp [e]
    · rw [ih (k - 1) (by omega) (by omega)]
      congr 1
      omega

/-! ## The five byte slots -/

theorem shiftRound_slot (l : Sample) (b : PulseBuffer) (f : Frame) (j : Nat) {s : Nat} (hs : s < 5) :
    (shiftRound l b f j).slot s = shiftIn (f.slot s) (classify l b (frameIndex s j)) := by
  interval_cases s <;> rfl

/-- The rounds of REASSEMBLE fill the slots side by side. -/
theorem foldl_shiftRound_slot (l : Sample) (b : PulseBuffer) {s : Nat} (hs : s < 5) (js : List Nat) (f : Frame) :
    (js.foldl (shiftRound l b) f).slot s =
      js.foldl (fun x j => shiftIn x (classify l b (frameIndex s j))) (f.slot s) := by
  induction js generalizing f with
  | nil => rfl
  | cons j js ih => rw [List.foldl_cons, ih, shiftRound_slot _ _ _ _ hs, List.foldl_cons]

/-- Bit `k` of byte slot `s` is the classification of the entry `1 + 8 * s + (7 - k)` (R70, R151). -/
theorem reassemble_slot_getLsbD (l : Sample) (b : PulseBuffer) {s k : Nat} (hs : s < 5) (hk : k < 8) :
    ((reassemble l b).slot s).getLsbD k = classify l b (frameIndex s (7 - k)) := by
  have hzero : Frame.slot { h0 := 0, h1 := 0, t0 := 0, t1 := 0, chk := 0 } s = 0 := by interval_cases s <;> rfl
  rw [reassemble, foldl_shiftRound_slot l b hs, hzero]
  exact foldl_shiftIn_getLsbD (fun j => classify l b (frameIndex s j)) 8 k hk hk

/-- Frame bit `n` is the classification of `PB[n + 1]` (R70). -/
theorem reassemble_bit (l : Sample) (b : PulseBuffer) {n : Nat} (hn : n < 40) :
    (reassemble l b).bit n = classify l b (n + 1) := by
  rw [Frame.bit, reassemble_slot_getLsbD l b (by omega) (by omega)]
  congr 1
  simp only [frameIndex, Config.leadIn]
  omega

/-- Settles O30: the bits of each slot in shift order, and the same bits in arrival order. -/
theorem frameBitsComeFromTheirSamples : Obligations.FrameBitsComeFromTheirSamples :=
  fun l buf => ⟨fun _ hn => reassemble_bit l buf hn, fun _ _ hs hb => reassemble_slot_getLsbD l buf hs hb⟩

/-! ## Frames are their bits -/

theorem Frame.slot_getLsbD (f : Frame) {s k : Nat} (hk : k < 8) : (f.slot s).getLsbD k = f.bit (8 * s + (7 - k)) := by
  rw [Frame.bit, show (8 * s + (7 - k)) / 8 = s by omega, show 7 - (8 * s + (7 - k)) % 8 = k by omega]

/-- Two frames with the same forty bits are the same frame. -/
theorem Frame.ext_bits {f g : Frame} (h : ∀ n, n < 40 → f.bit n = g.bit n) : f = g := by
  have hslot : ∀ s, s < 5 → f.slot s = g.slot s := by
    intro s hs
    apply BitVec.eq_of_getLsbD_eq
    intro k hk
    rw [f.slot_getLsbD hk, g.slot_getLsbD hk, h _ (by omega)]
  obtain ⟨h0, h1, t0, t1, chk⟩ := f
  obtain ⟨h0', h1', t0', t1', chk'⟩ := g
  simp only [Frame.mk.injEq]
  exact ⟨hslot 0 (by omega), hslot 1 (by omega), hslot 2 (by omega), hslot 3 (by omega), hslot 4 (by omega)⟩

/-- A buffer that spells a frame: after the lead-in its samples are above the threshold exactly where the frame has a
1. -/
def Spells (l : Sample) (b : PulseBuffer) (f : Frame) : Prop :=
  41 ≤ b.cur ∧ ∀ n, n < 40 → ∃ v : Sample, b.entry[n + 1]? = some (some v) ∧ (l.toNat < v.toNat ↔ f.bit n = true)

theorem read_of_entry_some {b : PulseBuffer} {k : Nat} {v : Sample} (hk : k < b.cur)
    (h : b.entry[k]? = some (some v)) : b.read k = some v := by
  obtain ⟨hlt, hv⟩ := Vector.getElem?_eq_some_iff.mp h
  rw [read_below b k hlt hk, hv]

theorem reassemble_of_spells {l : Sample} {b : PulseBuffer} {f : Frame} (h : Spells l b f) : reassemble l b = f := by
  obtain ⟨hcur, hbits⟩ := h
  apply Frame.ext_bits
  intro n hn
  obtain ⟨v, hv, hbit⟩ := hbits n hn
  rw [reassemble_bit l b hn, Bool.eq_iff_iff, classify_of_read_some l (read_of_entry_some (by omega) hv), hbit]

theorem decoded_of_spells {l : Sample} {b : PulseBuffer} {f : Frame} {x : SensorInstance} (h : Spells l b f)
    (hx : x.error = .none) :
    decoded l b x = { x with bytes := f, error := if f.sum = f.chk then .none else .checksum } := by
  simp [decoded, reassemble_of_spells h, hx]

/-- Settles O31: the buffer spells the frame, so reassembly gives it and the checksums agree. -/
theorem decoderReproducesEveryValidFrame : Obligations.DecoderReproducesEveryValidFrame := by
  intro l s i f hcur herr hbits hsum
  rw [decodeInto_eq, sensor_setSensor_same, decoded_of_spells ⟨hcur, hbits⟩ herr]
  exact ⟨rfl, if_pos hsum.symm⟩

/-! ## What the decoder reads (R151, R158) -/

theorem classify_congr (l : Sample) {a b : PulseBuffer} {k : Nat} (h : a.read k = b.read k) :
    classify l a k = classify l b k := by
  rw [classify, classify, h]

/-- Settles O33: reassembly classifies the entries 1 to 40, and a read at or beyond the cursor is empty in both. -/
theorem decoderReadsOnlyTheDataSamples : Obligations.DecoderReadsOnlyTheDataSamples := by
  intro l a b hcur hentry
  apply Frame.ext_bits
  intro n hn
  rw [reassemble_bit l a hn, reassemble_bit l b hn]
  apply classify_congr
  by_cases hk : n + 1 < a.cur
  · have hcap : n + 1 < Config.pbCapacity := by show n + 1 < 42; omega
    rw [read_below a (n + 1) hcap hk, read_below b (n + 1) hcap (hcur ▸ hk)]
    exact hentry ⟨n + 1, by omega⟩ (Nat.le_add_left 1 n) hn hk
  · rw [read_beyond a (n + 1) (by omega), read_beyond b (n + 1) (by omega)]

end Sys2Proof.Machine
end

