-- ==== Sys2Proof/Proofs/Capture.lean ====
section
/-! PROOFS. The Pulse Buffer's write (spec/20_memory.md section 2), and capture by the two strategies: EDGE and TMO
(spec/41_interrupt_capture.md), POLL (spec/42_polling_capture.md). -/

namespace Sys2Proof.Machine

/-! ## A write of the buffer (R53) -/

theorem write_full {b : PulseBuffer} (h : 42 ≤ b.cur) (v : Sample) : b.write v = b := by
  rw [PulseBuffer.write, dif_neg (Nat.not_lt.mpr h)]

/-- A write below capacity, whole. -/
theorem write_eq {b : PulseBuffer} (h : b.cur < 42) (v : Sample) :
    b.write v = { entry := b.entry.setIfInBounds b.cur (some v), cur := b.cur + 1 } := by
  rw [PulseBuffer.write, dif_pos h]
  congr 1
  ext k hk
  simp [Vector.getElem_set, Vector.getElem_setIfInBounds]

/-- The sample just written stands at the old cursor. -/
theorem write_entry_cur {b : PulseBuffer} (h : b.cur < 42) (v : Sample) :
    (b.write v).entry[b.cur]? = some (some v) := by
  rw [Vector.getElem?_eq_getElem h, write_entry, if_pos rfl]

/-- Settles O39: a full buffer drops the write, and otherwise `write_entry` and `read_write` say what stands where. -/
theorem bufferReadAfterWrite : Obligations.BufferReadAfterWrite := by
  refine fun b v => ⟨fun h => write_full h v, fun h => ⟨?_, ?_, fun k hk => ⟨?_, ?_⟩⟩⟩
  · rw [write_eq h]
  · rw [read_write b v _ h, if_pos rfl]
  · exact (write_entry b v k k.isLt).trans (if_neg hk.symm)
  · rw [read_write b v _ h, if_neg hk.symm]

/-- Settles O40: READ empties the buffer, EDGE and POLL write at the cursor if anywhere, the others leave it. -/
theorem bufferIsWrittenOnlyByCaptureAndRead : Obligations.BufferIsWrittenOnlyByCaptureAndRead := by
  intro op s t h
  have hwrite : ∀ (v : Sample) (k : Fin 42), k.val ≠ s.pb.cur → (s.pb.write v).entry[k] = s.pb.entry[k] :=
    fun v k hk => (write_entry s.pb v k k.isLt).trans (if_neg hk.symm)
  have hpoll : ∀ (lvl : Bool) (k : Fin 42), k.val ≠ s.pb.cur → (capturePoll lvl s).pb.entry[k] = s.pb.entry[k] := by
    intro lvl k hk
    rw [capturePoll_pb]
    split
    · exact hwrite _ k hk
    · rfl
  cases (exec_next h).2 with
  | reads hs => rw [hs.pb_empty]; exact ⟨rfl, fun k => empty_entry k.val k.isLt⟩
  | readsAndWaits hs => dsimp only; rw [hs.pb_empty]; exact ⟨rfl, fun k => empty_entry k.val k.isLt⟩
  | edgeStores cnt | edgeCompletes cnt => exact hwrite _
  | pollGoesOn lvl | pollUnowned lvl | pollEnds lvl => exact hpoll lvl
  | strayEdge => exact fun _ _ => rfl
  | configures | strayTmo | timesOut | isok | temp | hum => rfl

/-! ## EDGE and TMO -/

/-- Settles O20: with `ACTIVE` none both callbacks are no-ops. -/
theorem strayCallbacksChangeNothing : Obligations.StrayCallbacksChangeNothing :=
  fun cnt _ hacq hactive => ⟨exec_edge_stray cnt hacq hactive, exec_tmo_stray hacq hactive⟩

theorem exec_edge_of_acq {cnt : Sample} {s : State} (hacq : s.acq ≠ .polling) :
    exec (.edge cnt) s = .next (edge Config.params cnt s) :=
  (exec_edge_next ..).mpr ⟨hacq, rfl⟩

/-- Settles O17: the sample is not the 41st, so EDGE goes on. -/
theorem edgeStoresTheDelta : Obligations.EdgeStoresTheDelta := by
  intro cnt s i hacq hactive hcur
  have hwrite := write_eq (Nat.lt_trans hcur (by decide)) (pulseDelta cnt s.ref)
  rw [exec_edge_of_acq hacq, edge_continues hactive (by rw [hwrite]; exact Nat.succ_lt_succ hcur), hwrite]
  rfl

/-- What FINISH leaves in the instance, field by field. -/
theorem finished_eq (l : Sample) (b : PulseBuffer) (x : SensorInstance) :
    finished l b x =
      { x with
        inProgress := false
        bytes := if x.error = .none then reassemble l b else x.bytes
        error := if x.error = .none ∧ (reassemble l b).sum ≠ (reassemble l b).chk then .checksum else x.error } := by
  by_cases h : x.error = .none
  · simp [finished_clean l b x h, decoded, h]
  · simp [finished_error l b x h, h]

/-- Settles O18: the 41st sample completes the read, and FINISH writes what `finished_eq` says. -/
theorem fortyFirstEdgeCompletesTheRead : Obligations.FortyFirstEdgeCompletesTheRead := by
  intro cnt s i hacq hactive hcur
  have hwrite := write_eq (b := s.pb) (by omega) (pulseDelta cnt s.ref)
  rw [exec_edge_of_acq hacq, edge_completes hactive (write_cur_41st hcur _).ge, finished_eq, hwrite, hcur]
  rfl

/-- Settles O19: the three admission cases of TMO, each said once before. -/
theorem timeoutEndsTheReadWithoutDecoding : Obligations.TimeoutEndsTheReadWithoutDecoding := by
  refine ⟨rfl, rfl, rfl, fun s i h hactive => (h.active_owner i hactive).2.2, fun s => ⟨fun hacq => ?_, exec_tmo_stray,
    fun i hacq hactive => ?_⟩⟩
  · exact pollingLoopAdmitsOnlyPoll _ s hacq (by simp)
  · exact (exec_tmo_next ..).mpr ⟨hacq, timeout_some hactive⟩

/-- A delta of counter values that do not decrease is their difference. -/
theorem pulseDelta_toNat {cnt ref : Sample} (h : ref.toNat ≤ cnt.toNat) :
    (pulseDelta cnt ref).toNat = cnt.toNat - ref.toNat :=
  BitVec.toNat_sub_of_le h

/-- EDGE on an active instance stores the delta, whether or not it completes the read. -/
theorem edge_pb {cnt : Sample} {s : State} {i : InstIx} (hactive : s.active = some i) :
    (edge Config.params cnt s).pb = s.pb.write (pulseDelta cnt s.ref) := by
  rcases edge_cases Config.params cnt hactive with ⟨-, h⟩ | ⟨-, h⟩ <;> rw [h]

/-- Settles O22: the stored sample is the delta, and the environment keeps it from wrapping. -/
theorem counterDeltaNeverWrapsUnderTheEnvironment : Obligations.CounterDeltaNeverWrapsUnderTheEnvironment := by
  intro cnt s t i hactive hcur henv h
  obtain ⟨-, rfl⟩ := (exec_edge_next ..).mp h
  obtain ⟨hle, hlt⟩ := henv (by simp [hactive])
  refine ⟨pulseDelta cnt s.ref, ?_, pulseDelta_toNat hle, ?_⟩
  · rw [edge_pb hactive]
    exact write_entry_cur hcur _
  · rw [pulseDelta_toNat hle]
    omega

/-! ## POLL -/

theorem exec_poll_of_acq {lvl : Bool} {s : State} (hacq : s.acq = .polling) :
    exec (.poll lvl) s = .next (poll Config.params lvl s) :=
  (exec_poll_next ..).mpr ⟨hacq, rfl⟩

/-- An iteration that ends nothing is its capture part. -/
theorem poll_continues {lvl : Bool} {s : State} (h : ¬ PollStops lvl s) :
    poll Config.params lvl s = capturePoll lvl s := by
  rcases poll_cases Config.params lvl s with ⟨-, e⟩ | ⟨hstop, -⟩
  · rw [e, ← capturePoll_eq]
  · exact absurd hstop h

/-- An iteration that ends the loop of instance `i`. -/
theorem poll_stops {lvl : Bool} {s : State} {i : InstIx} (h : PollStops lvl s) (hi : s.pinst = some i) :
    poll Config.params lvl s =
      { s.setSensor i (pollFinished Config.params (capturePoll lvl s).pb (s.sensor i)) with
        pb := (capturePoll lvl s).pb, hicnt := (capturePoll lvl s).hicnt, iter := s.iter + 1
        acq := if (capturePoll lvl s).pb.cur < 41 then .timedOut else .complete
        pinst := none, hostWait := if s.hostWait = some i then none else s.hostWait } := by
  rcases poll_cases Config.params lvl s with ⟨hon, -⟩ | ⟨-, ⟨hnone, -⟩ | ⟨j, hj, e⟩⟩
  · exact absurd h hon
  · simp [hi] at hnone
  · obtain rfl : i = j := Option.some.inj (hi.symm.trans hj)
    exact e

/-! ### The capture part of an iteration -/

theorem capturePoll_high (s : State) : capturePoll true s = { s with hicnt := s.hicnt + 1, iter := s.iter + 1 } := rfl

theorem sample_pos_iff (v : Sample) : 0 < v.toNat ↔ v ≠ 0 :=
  Nat.pos_iff_ne_zero.trans (not_congr ⟨fun e => BitVec.eq_of_toNat_eq e, fun e => e ▸ rfl⟩)

theorem capturePoll_low {s : State} (h : s.hicnt = 0) : capturePoll false s = { s with iter := s.iter + 1 } := by
  simp [capturePoll, h]

theorem capturePoll_falls {s : State} (h : s.hicnt ≠ 0) :
    capturePoll false s = { s with pb := s.pb.write s.hicnt, hicnt := 0, iter := s.iter + 1 } := by
  simp [capturePoll, (sample_pos_iff s.hicnt).mpr h, pbWrite]

/-- The buffer after an iteration, with room in it. -/
theorem capturePoll_pb_eq {s : State} (h : s.pb.cur < 42) (lvl : Bool) :
    (capturePoll lvl s).pb =
      if lvl = false ∧ s.hicnt ≠ 0 then
        { entry := s.pb.entry.setIfInBounds s.pb.cur (some s.hicnt), cur := s.pb.cur + 1 }
      else s.pb := by
  rw [capturePoll_pb, write_eq h]
  simp only [sample_pos_iff]

/-- The count after an iteration: one more on a high level, cleared on a low one. -/
theorem capturePoll_hicnt_eq (lvl : Bool) (s : State) :
    (capturePoll lvl s).hicnt = if lvl = true then s.hicnt + 1 else 0 := by
  cases lvl with
  | true => rfl
  | false =>
    by_cases h : s.hicnt = 0
    · rw [capturePoll_low h, h]; rfl
    · rw [capturePoll_falls h]; rfl

/-- Settles O23: the three cases of the capture part, none of which stops the loop. -/
theorem pollIterationCountsOrStores : Obligations.PollIterationCountsOrStores := by
  intro s hacq hiter
  refine ⟨fun hcur => ?_, fun hcur hlow => ?_, fun hcur hhigh => ?_⟩
  · rw [exec_poll_of_acq hacq, poll_continues, capturePoll_high]
    exact not_or.mpr ⟨Nat.not_le.mpr hcur, hiter⟩
  · rw [exec_poll_of_acq hacq, poll_continues, capturePoll_low hlow]
    exact not_or.mpr ⟨by rw [capturePoll_low hlow]; exact Nat.not_le.mpr hcur, hiter⟩
  · have hwrite := write_eq (Nat.lt_trans hcur (by decide)) s.hicnt
    rw [exec_poll_of_acq hacq, poll_continues, capturePoll_falls hhigh, hwrite]
    exact not_or.mpr ⟨by rw [capturePoll_falls hhigh, hwrite]; exact Nat.not_le.mpr (Nat.succ_lt_succ hcur), hiter⟩

/-! ### The end of the loop -/

/-- POLL_END with 41 samples stored records no timeout. -/
theorem pollFinished_complete {p : Config.Params} {b : PulseBuffer} (h : p.pollStop ≤ b.cur) (x : SensorInstance) :
    pollFinished p b x = { decoded p.logic1 b x with inProgress := false } := by
  rw [pollFinished, if_neg (Nat.not_lt.mpr h)]

/-- POLL_END short of samples records TIMEOUT, which stands (R140). -/
theorem pollFinished_short {p : Config.Params} {b : PulseBuffer} (h : b.cur < p.pollStop) (x : SensorInstance) :
    pollFinished p b x = { x with error := .timeout, bytes := reassemble p.logic1 b, inProgress := false } := by
  rw [pollFinished, if_pos h]
  simp [decoded]

/-- Settles O24: the falling level stores the 41st sample, which stops the loop without a timeout. -/
theorem fortyFirstPulseCompletesThePollingRead : Obligations.FortyFirstPulseCompletesThePollingRead := by
  intro s i hacq hpinst hcur hhigh
  have hcap := capturePoll_falls hhigh
  have hwrite : s.pb.write s.hicnt = { entry := s.pb.entry.setIfInBounds 40 (some s.hicnt), cur := 41 } := by
    rw [write_eq (by omega), hcur]
  have hstop : PollStops false s := .inl (by rw [hcap, hwrite])
  rw [exec_poll_of_acq hacq, poll_stops hstop hpinst, hcap, hwrite, pollFinished_complete (le_refl 41)]
  rfl

/-- Settles O25: the budget is spent, too few samples are stored, and TIMEOUT stands over the checksum. -/
theorem exhaustedBudgetTimesOutAndDecodes : Obligations.ExhaustedBudgetTimesOutAndDecodes := by
  intro s i lvl hacq hpinst hiter hcur hlast
  have hstop : PollStops lvl s := .inr (by omega)
  have hpb := capturePoll_pb_eq (s := s) (by omega) lvl
  have hshort : (capturePoll lvl s).pb.cur < 41 := by
    rw [hpb]
    split
    · next hstores =>
      have : s.pb.cur ≠ 40 := fun e => by rcases hlast e with h | h <;> simp [h] at hstores
      show s.pb.cur + 1 < 41
      omega
    · omega
  rw [exec_poll_of_acq hacq, poll_stops hstop hpinst, if_pos hshort, pollFinished_short hshort, capturePoll_hicnt_eq,
    hpb, hiter]
  rfl

/-- POLL leaves the buffer that its capture part leaves, whether or not it ends the loop. -/
theorem poll_pb (lvl : Bool) (s : State) : (poll Config.params lvl s).pb = (capturePoll lvl s).pb := by
  rcases poll_cases Config.params lvl s with ⟨-, h⟩ | ⟨-, ⟨-, h⟩ | ⟨i, -, h⟩⟩ <;> rw [h]

/-- Settles O26: the sample is `HICNT`, at least 1 because it is stored, and at most the iterations made. -/
theorem polledSampleIsBetweenOneAnd9999 : Obligations.PolledSampleIsBetweenOneAnd9999 := by
  intro s t lvl h hexec hcur
  obtain ⟨hacq, rfl⟩ := (exec_poll_next ..).mp hexec
  obtain ⟨i, hi⟩ := Option.isSome_iff_exists.mp (h.pinst_iff.mp hacq)
  obtain ⟨-, -, hroom, hiter, hhi⟩ := h.pinst_owner i hi
  replace hroom : s.pb.cur < 41 := hroom
  replace hiter : s.iter < 10000 := hiter
  rw [poll_pb, capturePoll_pb] at hcur ⊢
  split at hcur
  · next hstores =>
    rw [if_pos hstores]
    exact ⟨s.hicnt, write_entry_cur (by omega) _, hstores.2, by omega⟩
  · omega

/-! ### A model with `POLL_STOP = 40` (R139) -/

/-- With 40 samples stored the last frame bit is read beyond the cursor. -/
theorem reassemble_last_bit (l : Sample) {b : PulseBuffer} (h : b.cur = 40) : (reassemble l b).bit 39 = false := by
  rw [reassemble_bit l b (by omega)]
  exact classify_of_read_none l (read_beyond b 40 h.le)

/-- Settles O28: bit 39 is the lowest bit of the checksum byte, so an odd sum differs from it. -/
theorem stoppingAtFortyLosesTheLastBit : Obligations.StoppingAtFortyLosesTheLastBit := by
  refine ⟨fun l b => reassemble_last_bit l, fun p s i hstop hpinst hcur herr hodd => ⟨?_, ?_⟩⟩
  · have hsum : (reassemble p.logic1 s.pb).sum ≠ (reassemble p.logic1 s.pb).chk := by
      intro e
      have heven : (reassemble p.logic1 s.pb).chk.getLsbD 0 = false := reassemble_last_bit p.logic1 hcur
      rw [e, heven] at hodd
      cases hodd
    rw [pollEnd_sensor hpinst, if_pos rfl, pollFinished_complete (by omega)]
    exact if_pos ⟨hsum, herr⟩
  · rw [pollEnd_some hpinst]
    exact if_neg (by omega)

end Sys2Proof.Machine
end

