-- ==== Sys2Proof/Proofs/StepRules.lean ====
section
/-! PROOFS. What every step keeps and who writes what (spec/10_state.md, spec/60_exceptions.md section 1,
spec/44_host_operations.md), read off the cases of `Effect` and `Writes`. -/

namespace Sys2Proof.Machine

/-! ## What admission says -/

/-- A host operation is admitted only when the host is free (R133, R175). -/
theorem Admits.hostFree {s : State} {op : Instr} (h : Admits s op) (hhost : op.agent = .host) : s.HostFree := by
  cases op with
  | edge | tmo | poll => cases hhost
  | _ => exact h.1

/-- READ and RDW are admitted only with no read of the instance and no active instance (R172). -/
theorem Admits.noRead_of_starts {s : State} {op : Instr} {i : InstIx} {tok : Bool} {c : Sample} (h : Admits s op)
    (hOp : op = .read i tok c ∨ op = .rdw i tok c) : (s.sensor i).inProgress = false ∧ s.active = none := by
  rcases hOp with rfl | rfl <;> exact h.2.2

/-! ## Who writes an instance -/

/-- The instance written is the one the operation names, the active one or the polled one. -/
theorem Writes.named_or_owner {s : State} {op : Instr} {i : InstIx} {x : SensorInstance} (h : Writes s op i x) :
    op.inst? = some i ∨ Owns s i := by
  cases h with
  | configures => exact .inl rfl
  | starts _ _ _ hOp => rcases hOp with rfl | rfl <;> exact .inl rfl
  | finishes _ hActive | timesOut hActive => exact .inr (.inl hActive)
  | pollEnds _ hPinst => exact .inr (.inr hPinst)

/-- Settles O47: an instance that is written is named, active or polled. -/
theorem otherInstancesAreUntouched : Obligations.OtherInstancesAreUntouched := by
  intro op s t j h hname hactive hpinst
  rcases (exec_next h).2.writes with hsame | ⟨i, x, hw, hsensor⟩
  · exact hsame j
  · rw [hsensor]
    refine if_neg fun e => ?_
    subst e
    rcases hw.named_or_owner with hn | ha | hp
    · exact hname hn
    · exact hactive ha
    · exact hpinst hp

/-- An operation that writes a configured instance keeps its configuration: CFG needs one not configured. -/
theorem Writes.configuration {s : State} {op : Instr} {i : InstIx} {x : SensorInstance} (h : Writes s op i x)
    (hi : (s.sensor i).configured = true) :
    x.configured = true ∧ x.pin = (s.sensor i).pin ∧ x.hasTimer = (s.sensor i).hasTimer := by
  cases h with
  | configures _ _ _ hNew => simp [hNew] at hi
  | starts =>
    exact ⟨(startedSensor_configured ..).trans hi, startedSensor_pin .., startedSensor_hasTimer ..⟩
  | finishes => rw [finished_eq]; exact ⟨hi, rfl, rfl⟩
  | timesOut => exact ⟨hi, rfl, rfl⟩
  | pollEnds => unfold pollFinished decoded; split <;> exact ⟨hi, rfl, rfl⟩

/-- Settles O49: see `Writes.configuration`. -/
theorem configurationIsFixedForLife : Obligations.ConfigurationIsFixedForLife := by
  intro op s t j h hj
  rcases (exec_next h).2.writes with hsame | ⟨i, x, hw, hsensor⟩
  · rw [hsame j]
    exact ⟨hj, rfl, rfl⟩
  · rw [hsensor]
    split
    · next e => subst e; exact hw.configuration hj
    · exact ⟨hj, rfl, rfl⟩

/-- Settles O48: no case records CONFIG, and ISOK compares the error with NONE. -/
theorem configErrorIsNeverRaised : Obligations.ConfigErrorIsNeverRaised := by
  refine ⟨⟨rfl, fun e => by cases e <;> decide⟩, fun op s t i h => (exec_next h).2.error_config,
    fun s t i herr hread h => ?_⟩
  obtain ⟨-, rfl⟩ := (exec_isok_next ..).mp h
  rw [answer_specified hread, isOk, herr]
  rfl

/-- Settles O38: with no read of `i` in progress `i` owns nothing, and CFG is refused as `i` is configured. -/
theorem resultsStayFixedBetweenReads : Obligations.ResultsStayFixedBetweenReads := by
  intro op s t j hinv h hconf hread hop
  rcases (exec_next h).2.writes with hsame | ⟨i, x, hw, hsensor⟩
  · exact hsame j
  · rw [hsensor]
    refine if_neg fun e => ?_
    subst e
    cases hw with
    | configures _ _ _ hNew => simp [hNew] at hconf
    | starts _ tok c hOp => rcases hOp with rfl | rfl <;> simp at hop
    | finishes _ hActive | timesOut hActive => simp [hinv.owner_inProgress (.inl hActive)] at hread
    | pollEnds _ hPinst => simp [hinv.owner_inProgress (.inr hPinst)] at hread

/-- Settles O46: READ and RDW set the flag of their instance, the ends of a read clear their owner's. -/
theorem readFlagIsSetAndClearedByItsOwners : Obligations.ReadFlagIsSetAndClearedByItsOwners := by
  intro op s t j hinv h
  obtain ⟨ha, he⟩ := exec_next h
  rcases he.writes with hsame | ⟨i, x, hw, hsensor⟩
  · rw [hsame j]
    exact ⟨fun h0 h1 => by simp [h0] at h1, fun h1 h0 => by simp [h0] at h1⟩
  · rw [hsensor]
    by_cases e : i = j
    · subst e
      rw [if_pos rfl]
      cases hw with
      | configures _ _ _ hNew =>
        refine ⟨fun _ h1 => (by cases h1), fun h1 _ => ?_⟩
        have := (hinv.progress_clean _ h1).1
        simp [hNew] at this
      | starts _ tok c hOp =>
        refine ⟨fun _ _ => ⟨tok, c, hOp⟩, fun h1 _ => ?_⟩
        simp [(ha.noRead_of_starts hOp).1] at h1
      | finishes cnt hActive => exact ⟨fun _ h1 => (by cases h1), fun _ _ => .inl ⟨hActive, .inr ⟨cnt, rfl⟩⟩⟩
      | timesOut hActive => exact ⟨fun _ h1 => (by cases h1), fun _ _ => .inl ⟨hActive, .inl rfl⟩⟩
      | pollEnds lvl hPinst => exact ⟨fun _ h1 => (by cases h1), fun _ _ => .inr ⟨hPinst, lvl, rfl⟩⟩
    · rw [if_neg e]
      exact ⟨fun h0 h1 => by simp [h0] at h1, fun h1 h0 => by simp [h0] at h1⟩

/-! ## Who writes a shared register -/

/-- Settles O42: each case of `Effect` names the registers it writes. -/
theorem sharedRegistersHaveOnlyTheirWriters : Obligations.SharedRegistersHaveOnlyTheirWriters := by
  intro op s t h
  replace h := (exec_next h).2
  cases h with
  | reads hs => cases hs <;> simp [Instr.mnemonic]
  | readsAndWaits hs => cases hs <;> simp [Instr.mnemonic]
  | _ => simp [Instr.mnemonic]

theorem Starts.releases {s t : State} {i : InstIx} {tok : Bool} {c : Sample} (h : Starts s i tok c t) :
    t.relT = s.relT ∧ t.relG = s.relG := by
  cases h <;> exact ⟨rfl, rfl⟩

theorem add_if_neg {n : Nat} {p : Prop} [Decidable p] (h : ¬ p) : n = n + (if p then 1 else 0) := by
  rw [if_neg h]; rfl

/-- Settles O50: `ACTIVE` goes from an instance to none in the two cases that count a release. -/
theorem resourcesAreReleasedOncePerArmedRead : Obligations.ResourcesAreReleasedOncePerArmedRead := by
  intro op s t h
  obtain ⟨ha, he⟩ := exec_next h
  have hkept : ¬ (s.active.isSome = true ∧ s.active = none) := by rintro ⟨h1, h2⟩; simp [h2] at h1
  cases he with
  | reads hs => simp [(ha.noRead_of_starts (.inl rfl)).2, hs.releases]
  | readsAndWaits hs => simp [(ha.noRead_of_starts (.inr rfl)).2, hs.releases]
  | edgeCompletes _ hActive | timesOut hActive => simp [hActive]
  | configures | strayEdge | edgeStores | strayTmo | pollGoesOn | pollUnowned | pollEnds | isok | temp | hum =>
    exact ⟨add_if_neg hkept, add_if_neg hkept⟩

/-! ## The acquisition state -/

theorem Inv.acq_of_active {s : State} {i : InstIx} (h : Inv s) (hi : s.active = some i) :
    s.acq = .armed ∨ s.acq = .sampling := h.active_iff.mpr (by simp [hi])

theorem Starts.acq {s t : State} {i : InstIx} {tok : Bool} {c : Sample} (h : Starts s i tok c t) :
    t.acq = if (s.sensor i).hasTimer = true then (if tok = true then .armed else .idle) else .polling := by
  cases h with
  | arms hTimer | aborts hTimer | polls hTimer => simp [hTimer]

/-- The table's rows for EDGE. -/
theorem Effect.edge_acq {s t : State} {cnt : Sample} (he : Effect s (.edge cnt) t) (h : Inv s)
    (hacq : s.acq ≠ .polling) :
    (s.acq = .armed → t.acq = .sampling ∧ t.pb.cur = 1) ∧
    (s.acq = .sampling → t.acq = if t.pb.cur < 41 then .sampling else .complete) ∧
    (s.acq = .idle ∨ s.acq = .complete ∨ s.acq = .timedOut → t.acq = s.acq) := by
  cases he with
  | strayEdge _ hStray => rcases (h.resting hacq hStray).acq with e | e | e <;> simp [e]
  | edgeStores _ hActive hMore =>
    refine ⟨fun e => ⟨if_pos e, ?_⟩, fun e => ?_, fun hrest => ?_⟩
    · simp [write_cur, h.armed_empty e]
    · simp [e, hMore]
    · rcases h.acq_of_active hActive with e | e <;> simp [e] at hrest
  | edgeCompletes cnt hActive hLast =>
    refine ⟨fun e => ?_, fun e => (if_neg (Nat.not_lt.mpr hLast)).symm, fun hrest => ?_⟩
    · have := write_cur_le s.pb (pulseDelta cnt s.ref)
      have := h.armed_empty e
      omega
    · rcases h.acq_of_active hActive with e | e <;> simp [e] at hrest

/-- The table's rows for TMO. -/
theorem Effect.tmo_acq {s t : State} (he : Effect s .tmo t) (h : Inv s) (hacq : s.acq ≠ .polling) :
    (s.acq = .armed ∨ s.acq = .sampling → t.acq = .timedOut) ∧
    (s.acq = .idle ∨ s.acq = .complete ∨ s.acq = .timedOut → t.acq = s.acq) := by
  cases he with
  | strayTmo hStray => rcases (h.resting hacq hStray).acq with e | e | e <;> simp [e]
  | timesOut hActive =>
    refine ⟨fun _ => rfl, fun hrest => ?_⟩
    rcases h.acq_of_active hActive with e | e <;> simp [e] at hrest

/-- The table's rows for POLL. -/
theorem Effect.poll_acq {s t : State} {lvl : Bool} (he : Effect s (.poll lvl) t) (h : Inv s) (hacq : s.acq = .polling) :
    t.acq = if 41 ≤ t.pb.cur then .complete else if t.iter = 10000 then .timedOut else .polling := by
  cases he with
  | pollGoesOn _ hOn =>
    obtain ⟨hcur, hiter⟩ := not_or.mp hOn
    simp [hacq, hcur, hiter]
  | pollUnowned _ _ hNone =>
    have := h.pinst_iff.mp hacq
    simp [hNone] at this
  | pollEnds _ hStop =>
    by_cases hcur : 41 ≤ (capturePoll lvl s).pb.cur
    · simp [hcur, Nat.not_lt.mpr hcur]
    · simp [hcur, Nat.not_le.mp hcur, hStop.resolve_left hcur]

/-- Settles O43: the rows of the table, operation by operation. -/
theorem acquisitionMovesAlongItsTable : Obligations.AcquisitionMovesAlongItsTable := by
  intro op s t hinv h
  obtain ⟨ha, he⟩ := exec_next h
  cases op with
  | read =>
    cases he with
    | reads hs => exact ⟨(hinv.resting ha.1.1 ha.2.2.2).acq, hs.acq⟩
  | rdw =>
    cases he with
    | readsAndWaits hs => exact ⟨(hinv.resting ha.1.1 ha.2.2.2).acq, hs.acq⟩
  | edge =>
    obtain ⟨harmed, hsampling, hrest⟩ := he.edge_acq hinv ha
    exact ⟨harmed, hsampling, hrest, ha⟩
  | tmo =>
    obtain ⟨hends, hrest⟩ := he.tmo_acq hinv ha
    exact ⟨hends, hrest, ha⟩
  | poll => exact ⟨ha, he.poll_acq hinv ha⟩
  | cfg | isok | temp | hum => cases he; exact ⟨ha.1.1, rfl⟩

/-! ## The end of a read -/

/-- Settles O51: an operation of the host is not admitted, and the others keep the read and the wait or end both. -/
theorem hostWaitsUntilItsReadIsOver : Obligations.HostWaitsUntilItsReadIsOver := by
  intro op s t i hinv hwait h
  obtain ⟨ha, he⟩ := exec_next h
  have hagent : op.agent ≠ .host := fun e => by simp [(ha.hostFree e).2] at hwait
  refine ⟨hagent, ?_⟩
  rcases he.same_or_resting hinv hagent with hsame | hrest
  · rw [sensor_of_sensors hsame.sensors, hsame.hostWait, hwait, hinv.wait_progress i hwait]
    simp
  · rw [hrest.hostWait, hrest.noRead i]
    simp

/-- With 41 samples the decode of a clean instance ends in NONE or CHECKSUM, as the checksums agree or not. -/
theorem decoded_outcome {l : Sample} {b : PulseBuffer} {x : SensorInstance} (hx : x.error = .none) :
    ((decoded l b x).error = .none ∧ (decoded l b x).bytes.sum = (decoded l b x).bytes.chk) ∨
      ((decoded l b x).error = .checksum ∧ (decoded l b x).bytes.sum ≠ (decoded l b x).bytes.chk) := by
  by_cases h : (reassemble l b).sum = (reassemble l b).chk
  · exact .inl ⟨by simp [decoded, h, hx], h⟩
  · exact .inr ⟨by simp [decoded, h, hx], h⟩

/-- An EDGE that ends a read stored the 41st sample and decoded. -/
theorem edge_outcome {s : State} {i : InstIx} {cnt : Sample} (hinv : Inv s) (hactive : s.active = some i)
    (h0 : ((edge Config.params cnt s).sensor i).inProgress = false) :
    (edge Config.params cnt s).acq = .complete ∧ (edge Config.params cnt s).pb.cur = 41 ∧
      (edge Config.params cnt s).sensor i =
        { decoded Config.logic1 (edge Config.params cnt s).pb (s.sensor i) with inProgress := false } := by
  obtain ⟨hread, -, hcur⟩ := hinv.active_owner i hactive
  rcases edge_cases Config.params cnt hactive with ⟨-, e⟩ | ⟨hLast, e⟩
  · rw [e] at h0
    exact absurd hread (by rw [show (s.sensor i).inProgress = false from h0]; decide)
  · have hle := write_cur_le s.pb (pulseDelta cnt s.ref)
    refine ⟨by rw [e], by rw [edge_pb hactive]; omega, ?_⟩
    rw [edge_completes_sensor hactive hLast, if_pos rfl, finished_clean _ _ _ (hinv.progress_clean i hread).2,
      edge_pb hactive]
    rfl

/-- A POLL that ends a read closed the loop. -/
theorem poll_outcome {s : State} {i : InstIx} {lvl : Bool} (hinv : Inv s) (hpinst : s.pinst = some i)
    (h0 : ((poll Config.params lvl s).sensor i).inProgress = false) :
    (poll Config.params lvl s).acq = (if (poll Config.params lvl s).pb.cur < 41 then .timedOut else .complete) ∧
      (poll Config.params lvl s).pb.cur ≤ 41 ∧
      (poll Config.params lvl s).sensor i = pollFinished Config.params (poll Config.params lvl s).pb (s.sensor i) := by
  obtain ⟨hread, -, hcur, -⟩ := hinv.pinst_owner i hpinst
  by_cases hStop : PollStops lvl s
  · rw [poll_stops hStop hpinst]
    exact ⟨rfl, (capturePoll_cur_le lvl s).trans hcur, (sensor_of_write rfl i).trans (if_pos rfl)⟩
  · rw [poll_continues hStop, capturePoll_eq] at h0
    exact absurd hread (by rw [show (s.sensor i).inProgress = false from h0]; decide)

/-- Settles O52: the flag is cleared by its owner's operations only, and each of the three has its outcomes. -/
theorem everyReadEndsInOneOfItsOutcomes : Obligations.EveryReadEndsInOneOfItsOutcomes := by
  intro op s t i hinv h h1 h0
  have hclean := (hinv.progress_clean i h1).2
  have hflag := (readFlagIsSetAndClearedByItsOwners op s t i hinv h).2 h1 h0
  have hrest : Resting t := by
    obtain ⟨-, he⟩ := exec_next h
    refine (he.same_or_resting hinv ?_).resolve_left fun hsame => ?_
    · rcases hflag with ⟨-, rfl | ⟨_, rfl⟩⟩ | ⟨-, _, rfl⟩ <;> exact Agent.noConfusion
    · rw [sensor_of_sensors hsame.sensors, h1] at h0
      cases h0
  refine ⟨by simp [hrest.active], by simp [hrest.pinst], ?_⟩
  rcases hflag with ⟨hactive, rfl | ⟨cnt, rfl⟩⟩ | ⟨hpinst, lvl, rfl⟩
  · obtain ⟨-, rfl⟩ := (exec_tmo_next ..).mp h
    refine ⟨.inr (by rw [timeout_some hactive]), .inl ⟨rfl, (hinv.active_owner i hactive).2.1, ?_⟩⟩
    rw [timeout_sensor hactive, if_pos rfl]
    exact ⟨rfl, rfl⟩
  · obtain ⟨-, rfl⟩ := (exec_edge_next ..).mp h
    obtain ⟨hacq, hcur, hx⟩ := edge_outcome hinv hactive h0
    refine ⟨.inl hacq, .inr ?_⟩
    rw [hx, hcur]
    refine ⟨rfl, (decoded_outcome hclean).imp (fun ho => ⟨ho.1, rfl, ho.2⟩) fun ho => .inl ⟨ho.1, rfl, ho.2⟩⟩
  · obtain ⟨-, rfl⟩ := (exec_poll_next ..).mp h
    obtain ⟨hacq, hcur, hx⟩ := poll_outcome hinv hpinst h0
    by_cases hshort : (poll Config.params lvl s).pb.cur < 41
    · rw [pollFinished_short hshort] at hx
      rw [hacq, if_pos hshort, hx]
      exact ⟨.inr rfl, .inr ⟨rfl, .inr (.inr ⟨rfl, (hinv.pinst_owner i hpinst).2.1, hshort⟩)⟩⟩
    · have hcur : (poll Config.params lvl s).pb.cur = 41 := by omega
      rw [pollFinished_complete hcur.ge] at hx
      rw [hacq, if_neg hshort, hx, hcur]
      exact ⟨.inl rfl, .inr ⟨rfl, (decoded_outcome hclean).imp (fun ho => ⟨ho.1, rfl, ho.2⟩) fun ho =>
        .inl ⟨ho.1, rfl, ho.2⟩⟩⟩

end Sys2Proof.Machine
end

