-- ==== Sys2Proof/Proofs/Runs.lean ====
section
/-! PROOFS. Runs of several steps, and the polling loop within its budget (spec/42_polling_capture.md). -/

namespace Sys2Proof.Machine

/-! ## Runs -/

/-- `n` steps lead from one state to another. -/
def Reaches (n : Nat) (s t : State) : Prop := Sys2Proof.core.run n s = .next t

theorem Reaches.refl (s : State) : Reaches 0 s s := rfl

theorem Reaches.head {n : Nat} {s t u : State} (h : step s = .next t) (hr : Reaches n t u) : Reaches (n + 1) s u := by
  simp only [Reaches, Host.Core.run]
  rw [show Sys2Proof.core.step s = .next t from h]
  exact hr

/-- The first step of a run. -/
theorem Reaches.head_inv {n : Nat} {s u : State} (h : Reaches (n + 1) s u) : ∃ t, step s = .next t ∧ Reaches n t u := by
  simp only [Reaches, Host.Core.run] at h
  split at h
  · next t ht => exact ⟨t, ht, h⟩
  · cases h
  · cases h

theorem Reaches.trans {m n : Nat} {s t u : State} (h : Reaches m s t) (hr : Reaches n t u) : Reaches (m + n) s u := by
  induction m generalizing s with
  | zero =>
    obtain rfl : s = t := by cases h; rfl
    rwa [Nat.zero_add]
  | succ m ih =>
    obtain ⟨v, hv, hm⟩ := h.head_inv
    rw [Nat.succ_add]
    exact .head hv (ih hm)

/-- A step on the word of an operation runs the operation. -/
theorem step_encode (op : Instr) (s : State) (rest : List Word) :
    step { s with events := encode op :: rest } = exec op { s with events := rest } :=
  step_of_decode rfl (decode_encode op)

theorem with_events_self {s : State} {ws : List Word} (h : s.events = ws) : { s with events := ws } = s := by
  subst h; rfl

/-! ## The polling loop within its budget -/

/-- One POLL of the loop: it goes on with one iteration more made, or leaves a resting state. -/
theorem poll_goesOn_or_rests {s : State} {i : InstIx} (lvl : Bool) (h : Inv s) (hi : s.pinst = some i) :
    ∃ t, exec (.poll lvl) s = .next t ∧ t.events = s.events ∧
      (Inv t ∧ t.pinst = some i ∧ t.iter = s.iter + 1 ∨ Resting t) := by
  have hacq : s.acq = .polling := h.pinst_iff.mpr (by simp [hi])
  have hexec := exec_poll_of_acq (lvl := lvl) hacq
  obtain ⟨ha, he⟩ := exec_next hexec
  refine ⟨_, hexec, (sharedRegistersHaveOnlyTheirWriters _ _ _ hexec).1, ?_⟩
  by_cases hstop : PollStops lvl s
  · refine .inr ((he.same_or_resting h Agent.noConfusion).resolve_left fun hsame => ?_)
    have hpinst := hsame.pinst
    rw [poll_stops hstop hi, hi] at hpinst
    cases hpinst
  · refine .inl ⟨he.keeps_inv ha h, ?_⟩
    rw [poll_continues hstop, capturePoll_eq]
    exact ⟨hi, rfl⟩

/-- From a state of the loop, levels for the rest of the budget lead to a resting state: each iteration ends the loop or
spends one of the budget. -/
theorem polls_reach_resting (levels : List Bool) {s : State} {i : InstIx} (h : Inv s) (hi : s.pinst = some i)
    (hlen : s.iter + levels.length = 10000) :
    ∃ n t, n ≤ levels.length ∧ Reaches n { s with events := levels.map fun l => encode (.poll l) } t ∧ Resting t := by
  have hiter : s.iter < 10000 := (h.pinst_owner i hi).2.2.2.1
  induction levels generalizing s with
  | nil => exact absurd hlen hiter.ne
  | cons lvl levels ih =>
    have hinv : Inv { s with events := levels.map fun l => encode (.poll l) } := { h with }
    obtain ⟨t, hexec, hevents, hgoes⟩ := poll_goesOn_or_rests lvl hinv hi
    rw [← step_encode] at hexec
    rcases hgoes with ⟨ht, hpinst, hone⟩ | hrest
    · have hlen' : t.iter + levels.length = 10000 := by
        simp only [List.length_cons] at hlen
        replace hone : t.iter = s.iter + 1 := hone
        omega
      obtain ⟨n, u, hn, hreach, hrest⟩ := ih ht hpinst hlen' (ht.pinst_owner i hpinst).2.2.2.1
      rw [with_events_self hevents] at hreach
      exact ⟨n + 1, u, Nat.succ_le_succ hn, .head hexec hreach, hrest⟩
    · exact ⟨1, t, by simp, .head hexec (.refl t), hrest⟩

/-- Settles O27: the levels lead to a resting state, in which nothing polls, no read is in progress and nobody waits. -/
theorem pollingLoopEndsWithinItsBudget : Obligations.PollingLoopEndsWithinItsBudget := by
  intro s i levels h hi hlen
  have hiter : s.iter < Config.params.pollBudget := (h.pinst_owner i hi).2.2.2.1
  obtain ⟨n, t, hn, hreach, hrest⟩ := polls_reach_resting levels h hi (by
    rw [hlen]; exact Nat.add_sub_of_le hiter.le)
  refine ⟨n, t, hn, hreach, ?_, hrest.pinst, hrest.noRead i, by simp [hrest.hostWait]⟩
  rcases hrest.acq with e | e | e <;> simp [e]

end Sys2Proof.Machine
end

