-- ==== Sys2Proof/Proofs/WholeReads.lean ====
section
/-! PROOFS. Whole reads: by either strategy an admitted READ and its samples deliver the frame that the samples spell
(spec/41_interrupt_capture.md, spec/42_polling_capture.md, spec/43_bit_decoder.md). -/

namespace Sys2Proof.Machine

/-! ## Storing a list of samples -/

/-- The samples written one after another. -/
def PulseBuffer.writes (b : PulseBuffer) (vs : List Sample) : PulseBuffer := vs.foldl PulseBuffer.write b

theorem writes_cons (b : PulseBuffer) (v : Sample) (vs : List Sample) :
    b.writes (v :: vs) = (b.write v).writes vs := rfl

theorem writes_append (b : PulseBuffer) (us vs : List Sample) : b.writes (us ++ vs) = (b.writes us).writes vs :=
  List.foldl_append

theorem writes_cur {b : PulseBuffer} {vs : List Sample} (h : b.cur + vs.length ≤ 42) :
    (b.writes vs).cur = b.cur + vs.length := by
  induction vs generalizing b with
  | nil => rfl
  | cons v vs ih =>
    simp only [List.length_cons] at h ⊢
    have hone : (b.write v).cur = b.cur + 1 := by rw [write_eq (by omega)]
    rw [writes_cons, ih (by omega), hone]
    omega

/-- Writing leaves what lies below the cursor. -/
theorem writes_entry_below {b : PulseBuffer} {vs : List Sample} {k : Nat} (hk : k < b.cur) :
    (b.writes vs).entry[k]? = b.entry[k]? := by
  induction vs generalizing b with
  | nil => rfl
  | cons v vs ih =>
    by_cases hfull : b.cur < 42
    · rw [writes_cons, ih (by rw [write_eq hfull]; exact Nat.lt_succ_of_lt hk), write_eq hfull,
        Vector.getElem?_setIfInBounds, if_neg (by omega)]
    · rw [writes_cons, write_full (Nat.not_lt.mp hfull), ih hk]

/-- The `n`-th sample of the list stands `n` entries above the old cursor. -/
theorem writes_entry {b : PulseBuffer} {vs : List Sample} {n : Nat} {v : Sample} (h : b.cur + vs.length ≤ 42)
    (hv : vs[n]? = some v) : (b.writes vs).entry[b.cur + n]? = some (some v) := by
  induction vs generalizing b n with
  | nil => simp at hv
  | cons u vs ih =>
    simp only [List.length_cons] at h
    have hone : (b.write u).cur = b.cur + 1 := by rw [write_eq (by omega)]
    rw [writes_cons]
    cases n with
    | zero =>
      obtain rfl : u = v := by simpa using hv
      rw [Nat.add_zero, writes_entry_below (by omega), write_entry_cur (by omega)]
    | succ n =>
      rw [← ih (b := b.write u) (by omega) (by simpa using hv), hone]
      congr 1
      omega

/-- Forty-one samples stored in an empty buffer spell the frame that the last forty spell. -/
theorem spells_writes {l : Sample} {vs : List Sample} {f : Frame} (hlen : vs.length = 41)
    (hbits : ∀ n, n < 40 → ∃ v : Sample, vs[n + 1]? = some v ∧ (l.toNat < v.toNat ↔ f.bit n = true)) :
    Spells l (PulseBuffer.empty.writes vs) f := by
  refine ⟨by rw [writes_cur (by simp [hlen])]; simp [hlen], fun n hn => ?_⟩
  obtain ⟨v, hv, hbit⟩ := hbits n hn
  refine ⟨v, ?_, hbit⟩
  have := writes_entry (b := PulseBuffer.empty) (by simp [hlen]) hv
  rwa [empty_cur, Nat.zero_add] at this

/-! ## A run of edges -/

/-- The state after a run of edges that do not complete the read. -/
def captureEdges (cnts : List Sample) (s : State) : State := cnts.foldl (fun s c => captureEdge c s) s

/-- The widths between counter values, starting from a reference. -/
def deltas : Sample → List Sample → List Sample
  | _, [] => []
  | ref, c :: cs => pulseDelta c ref :: deltas c cs

theorem deltas_length (ref : Sample) (cs : List Sample) : (deltas ref cs).length = cs.length := by
  induction cs generalizing ref with
  | nil => rfl
  | cons c cs ih => simp [deltas, ih]

theorem deltas_succ {ref a b : Sample} {cs : List Sample} {n : Nat} (ha : cs[n]? = some a) (hb : cs[n + 1]? = some b) :
    (deltas ref cs)[n + 1]? = some (b - a) := by
  induction cs generalizing ref n with
  | nil => simp at ha
  | cons c cs ih =>
    cases n with
    | zero =>
      obtain rfl : c = a := by simpa using ha
      cases cs with
      | nil => simp at hb
      | cons d ds =>
        obtain rfl : d = b := by simpa using hb
        rfl
    | succ n => simpa [deltas] using ih (ref := c) (by simpa using ha) (by simpa using hb)

theorem captureEdges_pb (cnts : List Sample) (s : State) :
    (captureEdges cnts s).pb = s.pb.writes (deltas s.ref cnts) := by
  induction cnts generalizing s with
  | nil => rfl
  | cons c cs ih => exact ih (captureEdge c s)

theorem captureEdges_sensors (cnts : List Sample) (s : State) : (captureEdges cnts s).sensors = s.sensors := by
  induction cnts generalizing s with
  | nil => rfl
  | cons c cs ih => exact ih (captureEdge c s)

theorem captureEdges_active (cnts : List Sample) (s : State) : (captureEdges cnts s).active = s.active := by
  induction cnts generalizing s with
  | nil => rfl
  | cons c cs ih => exact ih (captureEdge c s)

theorem captureEdge_acq {s : State} (h : s.acq ≠ .polling) (c : Sample) : (captureEdge c s).acq ≠ .polling := by
  by_cases e : s.acq = .armed
  · simp [captureEdge, e]
  · simpa [captureEdge, e] using h

theorem captureEdges_acq {cnts : List Sample} {s : State} (h : s.acq ≠ .polling) :
    (captureEdges cnts s).acq ≠ .polling := by
  induction cnts generalizing s with
  | nil => exact h
  | cons c cs ih => exact ih (captureEdge_acq h c)

/-- An edge that does not store the 41st sample is its capture part. -/
theorem exec_edge_captures {c : Sample} {s : State} {i : InstIx} (hacq : s.acq ≠ .polling) (hactive : s.active = some i)
    (hroom : s.pb.cur < 40) : exec (.edge c) s = .next (captureEdge c s) := by
  have hcur : (s.pb.write (pulseDelta c s.ref)).cur = s.pb.cur + 1 := by rw [write_eq (by omega)]
  rw [exec_edge_of_acq hacq, edge_continues hactive (by omega)]
  rfl

/-- Edges below the 41st sample run one after another. -/
theorem edges_reach {cnts : List Sample} {s : State} {i : InstIx} (hacq : s.acq ≠ .polling)
    (hactive : s.active = some i) (hroom : s.pb.cur + cnts.length ≤ 40) (rest : List Word) :
    Reaches cnts.length { s with events := (cnts.map fun c => encode (.edge c)) ++ rest }
      { captureEdges cnts s with events := rest } := by
  induction cnts generalizing s with
  | nil => exact .refl _
  | cons c cs ih =>
    simp only [List.length_cons] at hroom
    refine .head ?_ (ih (s := captureEdge c s) (captureEdge_acq hacq c) hactive ?_)
    · rw [List.map_cons, List.cons_append, step_encode]
      exact exec_edge_captures (s := { s with events := _ }) hacq hactive (show s.pb.cur < 40 by omega)
    · have := write_cur_le s.pb (pulseDelta c s.ref)
      show (s.pb.write (pulseDelta c s.ref)).cur + cs.length ≤ 40
      omega

/-! ## The interrupt strategy -/

theorem startRead_with_events (i : InstIx) (tok : Bool) (cnt0 : Sample) (s : State) (ws : List Word) :
    startRead Config.params i tok cnt0 { s with events := ws } =
      { startRead Config.params i tok cnt0 s with events := ws } := by
  cases hTimer : (s.sensor i).hasTimer with
  | false => rw [startRead_polls (s := { s with events := ws }) hTimer, startRead_polls hTimer]; rfl
  | true =>
    cases tok with
    | true => rw [startRead_arms (s := { s with events := ws }) hTimer, startRead_arms hTimer]; rfl
    | false => rw [startRead_aborts (s := { s with events := ws }) hTimer, startRead_aborts hTimer]; rfl

/-- The step of an admitted READ, whatever words follow. -/
theorem read_step {s : State} {i : InstIx} {tok : Bool} {cnt0 : Sample} (h : Admits s (.read i tok cnt0))
    (rest : List Word) :
    step { s with events := encode (.read i tok cnt0) :: rest } =
      .next { startRead Config.params i tok cnt0 s with events := rest } := by
  rw [step_encode, ← startRead_with_events]
  exact exec_read_of_admits h

/-- A READ that starts a read records no error (R171). -/
theorem startRead_error {s : State} {i : InstIx} {tok : Bool} (h : (!(s.sensor i).hasTimer || tok) = true)
    (cnt0 : Sample) : ((startRead Config.params i tok cnt0 s).sensor i).error = .none := by
  rw [← startRead_inProgress i tok cnt0, (starts_startRead s i tok cnt0).sensor_self] at h
  rw [(starts_startRead s i tok cnt0).sensor_self]
  exact startedSensor_error_of_inProgress h

/-- What a whole read leaves in its instance: the frame, and an error if the checksums differ. -/
def delivered (f : Frame) (x : SensorInstance) : SensorInstance :=
  { x with inProgress := false, bytes := f, error := if f.sum = f.chk then .none else .checksum }

theorem finished_of_spells {l : Sample} {b : PulseBuffer} {f : Frame} {x : SensorInstance} (h : Spells l b f)
    (hx : x.error = .none) : finished l b x = delivered f x := by
  rw [finished_clean l b x hx, decoded_of_spells h hx]
  rfl

theorem pollFinished_of_spells {p : Config.Params} {b : PulseBuffer} {f : Frame} {x : SensorInstance}
    (hstop : p.pollStop ≤ b.cur) (h : Spells p.logic1 b f) (hx : x.error = .none) :
    pollFinished p b x = delivered f x := by
  rw [pollFinished_complete hstop, decoded_of_spells h hx]
  rfl

/-- The edge that stores the 41st sample of a spelled frame delivers the frame. -/
theorem last_edge_delivers {s : State} {i : InstIx} {c : Sample} {f : Frame} (hactive : s.active = some i)
    (herr : (s.sensor i).error = .none) (hspells : Spells Config.logic1 (s.pb.write (pulseDelta c s.ref)) f) :
    (edge Config.params c s).sensor i = delivered f (s.sensor i) ∧ (edge Config.params c s).acq = .complete ∧
      (edge Config.params c s).active = none ∧ (edge Config.params c s).timerHeld = false ∧
      (edge Config.params c s).irqReg = false ∧ (edge Config.params c s).events = s.events := by
  constructor
  · rw [edge_completes_sensor hactive hspells.1, if_pos rfl]
    exact finished_of_spells hspells herr
  · rw [edge_completes hactive hspells.1]
    exact ⟨rfl, rfl, rfl, rfl, rfl⟩

/-- From an armed state 41 edges that spell a frame complete the read. -/
theorem edges_complete {s : State} {i : InstIx} {cnts : List Sample} {f : Frame} (hacq : s.acq ≠ .polling)
    (hactive : s.active = some i) (herr : (s.sensor i).error = .none) (hempty : s.pb = PulseBuffer.empty)
    (hlen : cnts.length = 41) (hspells : Spells Config.logic1 (PulseBuffer.empty.writes (deltas s.ref cnts)) f) :
    ∃ t, Reaches 41 { s with events := cnts.map fun c => encode (.edge c) } t ∧
      t.sensor i = delivered f (s.sensor i) ∧ t.acq = .complete ∧ t.active = none ∧ t.timerHeld = false ∧
      t.irqReg = false ∧ t.events = [] := by
  obtain rfl | ⟨init, last, rfl⟩ := cnts.eq_nil_or_concat'
  · cases hlen
  replace hlen : init.length = 40 := by simpa using hlen
  have hfirst := edges_reach hacq hactive (by simp [hempty, hlen]) [encode (.edge last)] (cnts := init)
  rw [hlen] at hfirst
  have hsensor : (captureEdges init s).sensor i = s.sensor i := sensor_of_sensors (captureEdges_sensors init s) i
  have hpb : PulseBuffer.empty.writes (deltas s.ref (init ++ [last])) =
      (captureEdges init s).pb.write (pulseDelta last (captureEdges init s).ref) := by
    rw [← hempty, ← captureEdges_pb, captureEdges, List.foldl_append]
    rfl
  rw [hpb] at hspells
  obtain ⟨hx, hends⟩ := last_edge_delivers (s := { captureEdges init s with events := [] }) (i := i)
    ((captureEdges_active init s).trans hactive) ((congrArg _ hsensor).trans herr) hspells
  refine ⟨edge Config.params last { captureEdges init s with events := [] }, ?_,
    hx.trans (congrArg (delivered f) hsensor), hends⟩
  rw [List.map_append]
  refine hfirst.trans (.head ?_ (.refl _))
  rw [step_encode]
  exact exec_edge_of_acq (captureEdges_acq hacq)

/-- Settles O53: READ arms with an empty buffer, and the 41 edges store the deltas that spell the frame. -/
theorem interruptReadDeliversEveryFrame : Obligations.InterruptReadDeliversEveryFrame := by
  intro s i cnt0 cnts f h hTimer hlen hbits
  have harms := startRead_arms (p := Config.params) hTimer cnt0
  have hspells : Spells Config.logic1 (PulseBuffer.empty.writes (deltas cnt0 cnts)) f := by
    refine spells_writes (by rw [deltas_length, hlen]) fun n hn => ?_
    obtain ⟨a, b, ha, hb, hbit⟩ := hbits n hn
    exact ⟨b - a, deltas_succ ha hb, hbit⟩
  obtain ⟨t, hreach, hx, hrest⟩ := edges_complete (s := startRead Config.params i true cnt0 s) (i := i)
    (by simp [harms]) (by rw [harms]) (startRead_error (Bool.or_true _) cnt0) (by rw [harms]) hlen
    (by rw [harms]; exact hspells)
  refine ⟨t, Reaches.head (read_step h _) hreach, ?_⟩
  rw [hx]
  exact ⟨rfl, rfl, rfl, hrest⟩

/-! ## A run of the polling loop -/

/-- The state after a run of iterations that do not end the loop. -/
def capturePolls (levels : List Bool) (s : State) : State := levels.foldl (fun s l => capturePoll l s) s

theorem capturePolls_append (ls ms : List Bool) (s : State) :
    capturePolls (ls ++ ms) s = capturePolls ms (capturePolls ls s) := List.foldl_append

theorem capturePolls_cons (l : Bool) (ls : List Bool) (s : State) :
    capturePolls (l :: ls) s = capturePolls ls (capturePoll l s) := rfl

theorem le_capturePoll_cur (l : Bool) (s : State) : s.pb.cur ≤ (capturePoll l s).pb.cur := by
  rw [capturePoll_pb]
  split
  · rw [write_cur]; split <;> omega
  · exact le_rfl

theorem le_capturePolls_cur (ls : List Bool) (s : State) : s.pb.cur ≤ (capturePolls ls s).pb.cur := by
  induction ls generalizing s with
  | nil => exact le_rfl
  | cons l ls ih => exact (le_capturePoll_cur l s).trans (ih (capturePoll l s))

theorem capturePoll_with_events (l : Bool) (s : State) (ws : List Word) :
    capturePoll l { s with events := ws } = { capturePoll l s with events := ws } := by
  rw [capturePoll_eq, capturePoll_eq l s, capturePoll_pb, capturePoll_pb, capturePoll_hicnt, capturePoll_hicnt]

/-- Iterations within the budget and below 41 samples run one after another. -/
theorem polls_reach {ls : List Bool} {s : State} (hacq : s.acq = .polling) (hiter : s.iter + ls.length < 10000)
    (hcur : (capturePolls ls s).pb.cur < 41) (rest : List Word) :
    Reaches ls.length { s with events := (ls.map fun l => encode (.poll l)) ++ rest }
      { capturePolls ls s with events := rest } := by
  induction ls generalizing s with
  | nil => exact .refl _
  | cons l ls ih =>
    simp only [List.length_cons] at hiter
    rw [capturePolls_cons] at hcur
    have hacq' : (capturePoll l s).acq = .polling := by rw [capturePoll_eq]; exact hacq
    have hiter' : (capturePoll l s).iter = s.iter + 1 := by rw [capturePoll_eq]
    have hon : ¬ PollStops l { s with events := (ls.map fun l => encode (.poll l)) ++ rest } := by
      have := le_capturePolls_cur ls (capturePoll l s)
      rw [PollStops, capturePoll_with_events]
      rintro (h | h)
      · exact absurd (h.trans this) (by omega)
      · replace h : s.iter + 1 = 10000 := h
        omega
    refine .head ?_ (ih (s := capturePoll l s) hacq' (by omega) hcur)
    rw [List.map_cons, List.cons_append, step_encode, ← capturePoll_with_events, ← poll_continues hon]
    exact exec_poll_of_acq hacq

/-! ### What the iterations store -/

theorem capturePolls_high (n : Nat) (s : State) :
    capturePolls (List.replicate n true) s =
      { s with hicnt := s.hicnt + BitVec.ofNat 16 n, iter := s.iter + n } := by
  induction n generalizing s with
  | zero => simp [capturePolls]
  | succ n ih =>
    rw [List.replicate_succ, capturePolls_cons, ih, capturePoll_high, BitVec.ofNat_add, BitVec.add_assoc,
      BitVec.add_comm (1 : Sample), Nat.add_assoc, Nat.add_comm 1]
    rfl

theorem capturePolls_low (n : Nat) {s : State} (h : s.hicnt = 0) :
    capturePolls (List.replicate n false) s = { s with iter := s.iter + n } := by
  induction n generalizing s with
  | zero => rfl
  | succ n ih =>
    rw [List.replicate_succ, capturePolls_cons, capturePoll_low h, ih (s := { s with iter := s.iter + 1 }) h,
      Nat.add_assoc, Nat.add_comm 1]

/-- The levels of one pulse: some high iterations, then some low ones. -/
def pulseLevels (p : Nat × Nat) : List Bool := List.replicate (p.1 + 1) true ++ List.replicate p.2 false

/-- The sample of a pulse: its high iterations. -/
def pulseSample (p : Nat × Nat) : Sample := BitVec.ofNat 16 (p.1 + 1)

theorem pulseSample_toNat {p : Nat × Nat} (h : p.1 + 1 < 65536) : (pulseSample p).toNat = p.1 + 1 :=
  Nat.mod_eq_of_lt h

theorem pulseSample_ne_zero {p : Nat × Nat} (h : p.1 + 1 < 65536) : pulseSample p ≠ 0 := by
  rw [← sample_pos_iff, pulseSample_toNat h]
  exact Nat.succ_pos _

theorem pulseLevels_length (p : Nat × Nat) : (pulseLevels p).length = p.1 + 1 + p.2 := by simp [pulseLevels]

/-- The high iterations of a pulse, counted from zero. -/
theorem capturePolls_high_of_zero {s : State} (h : s.hicnt = 0) (p : Nat × Nat) :
    capturePolls (List.replicate (p.1 + 1) true) s = { s with hicnt := pulseSample p, iter := s.iter + (p.1 + 1) } := by
  rw [capturePolls_high, h, zero_add]
  rfl

/-- A pulse with a low iteration stores its sample and leaves the count at zero. -/
theorem capturePolls_pulse {s : State} (h : s.hicnt = 0) {p : Nat × Nat} (hlow : 1 ≤ p.2) (hp : p.1 + 1 < 65536) :
    capturePolls (pulseLevels p) s =
      { s with pb := s.pb.write (pulseSample p), iter := s.iter + (pulseLevels p).length } := by
  obtain ⟨k, hk⟩ : ∃ k, p.2 = k + 1 := ⟨p.2 - 1, by omega⟩
  have hiter : s.iter + (p.1 + 1) + 1 + k = s.iter + (pulseLevels p).length := by rw [pulseLevels_length]; omega
  rw [← hiter, pulseLevels, capturePolls_append, capturePolls_high_of_zero h, hk, List.replicate_succ,
    capturePolls_cons, capturePoll_falls (pulseSample_ne_zero hp), capturePolls_low k rfl, ← h]

theorem capturePolls_pulses {s : State} (h : s.hicnt = 0) {ps : List (Nat × Nat)} (hlow : ∀ p ∈ ps, 1 ≤ p.2)
    (hlen : (ps.flatMap pulseLevels).length < 65536) :
    capturePolls (ps.flatMap pulseLevels) s =
      { s with pb := s.pb.writes (ps.map pulseSample), iter := s.iter + (ps.flatMap pulseLevels).length } := by
  induction ps generalizing s with
  | nil => rfl
  | cons p ps ih =>
    rw [List.flatMap_cons, List.length_append] at hlen
    have hp := pulseLevels_length p
    rw [List.flatMap_cons, capturePolls_append, capturePolls_pulse h (hlow p (by simp)) (by omega),
      ih (s := { s with pb := s.pb.write (pulseSample p), iter := s.iter + (pulseLevels p).length }) h
        (fun q hq => hlow q (by simp [hq])) (by omega),
      List.length_append, Nat.add_assoc]
    rfl

/-! ## The polling strategy -/

/-- The levels of a whole read: idle ones, the pulses, and the low level that ends the last pulse. -/
def readLevels (idle : Nat) (ps : List (Nat × Nat)) : List Bool :=
  List.replicate idle false ++ ps.flatMap pulseLevels ++ [false]

/-- A pulse within the budget is counted without overflow. -/
theorem pulse_short {idle : Nat} {ps : List (Nat × Nat)} {p : Nat × Nat} (hp : p ∈ ps)
    (hlen : (readLevels idle ps).length ≤ 10000) : p.1 + 1 < 65536 := by
  have hpart : (pulseLevels p).length ≤ (ps.flatMap pulseLevels).length := by
    rw [List.flatMap_def]
    exact (List.sublist_flatten_of_mem (List.mem_map_of_mem hp)).length_le
  rw [pulseLevels_length] at hpart
  simp only [readLevels, List.length_append] at hlen
  omega

/-- Up to the last high iteration: forty samples stored, the 41st counted. -/
theorem capturePolls_body {s : State} {idle : Nat} {init : List (Nat × Nat)} {last : Nat × Nat} (h : s.hicnt = 0)
    (hlow : ∀ p ∈ init, 1 ≤ p.2) (hend : last.2 = 0) (hlen : ((init ++ [last]).flatMap pulseLevels).length < 65536) :
    capturePolls (List.replicate idle false ++ (init ++ [last]).flatMap pulseLevels) s =
      { s with
        pb := s.pb.writes (init.map pulseSample), hicnt := pulseSample last
        iter := s.iter + (idle + ((init ++ [last]).flatMap pulseLevels).length) } := by
  have hlast : pulseLevels last = List.replicate (last.1 + 1) true := by simp [pulseLevels, hend]
  rw [List.flatMap_append, List.flatMap_singleton, List.length_append] at hlen ⊢
  rw [capturePolls_append, capturePolls_low idle h, capturePolls_append,
    capturePolls_pulses (s := { s with iter := s.iter + idle }) h hlow (by omega), hlast,
    capturePolls_high_of_zero (s := { s with
      pb := s.pb.writes (init.map pulseSample), iter := s.iter + idle + (init.flatMap pulseLevels).length }) h,
    List.length_replicate]
  simp only [Nat.add_assoc]

/-- The falling level that stores the 41st sample of a spelled frame delivers the frame. -/
theorem last_poll_delivers {s : State} {i : InstIx} {f : Frame} (hpinst : s.pinst = some i) (hhi : s.hicnt ≠ 0)
    (herr : (s.sensor i).error = .none) (hspells : Spells Config.logic1 (s.pb.write s.hicnt) f) :
    (poll Config.params false s).sensor i = delivered f (s.sensor i) ∧ (poll Config.params false s).acq = .complete ∧
      (poll Config.params false s).pinst = none ∧ (poll Config.params false s).events = s.events := by
  have hcap := capturePoll_falls hhi
  have hstop : PollStops false s := .inl (by rw [hcap]; exact hspells.1)
  rw [poll_stops hstop hpinst, hcap, pollFinished_of_spells (f := f) (p := Config.params) hspells.1 hspells herr]
  exact ⟨(sensor_of_write rfl i).trans (if_pos rfl), if_neg (Nat.not_lt.mpr hspells.1), rfl, rfl⟩

/-- From the start of the polling loop, 41 pulses that spell a frame complete the read. -/
theorem polls_complete {s : State} {i : InstIx} {idle : Nat} {init : List (Nat × Nat)} {last : Nat × Nat} {f : Frame}
    (hacq : s.acq = .polling) (hpinst : s.pinst = some i) (hhi : s.hicnt = 0) (hiter : s.iter = 0)
    (herr : (s.sensor i).error = .none) (hempty : s.pb = PulseBuffer.empty) (hinit : init.length = 40)
    (hlen : (readLevels idle (init ++ [last])).length ≤ 10000) (hlow : ∀ p ∈ init, 1 ≤ p.2) (hend : last.2 = 0)
    (hspells : Spells Config.logic1 (PulseBuffer.empty.writes ((init ++ [last]).map pulseSample)) f) :
    ∃ t, Reaches (readLevels idle (init ++ [last])).length
        { s with events := (readLevels idle (init ++ [last])).map fun l => encode (.poll l) } t ∧
      t.sensor i = delivered f (s.sensor i) ∧ t.acq = .complete ∧ t.pinst = none ∧ t.events = [] := by
  have hlast : last.1 + 1 < 65536 := pulse_short (by simp) hlen
  generalize hbody : List.replicate idle false ++ (init ++ [last]).flatMap pulseLevels = body
  have hlevels : readLevels idle (init ++ [last]) = body ++ [false] := by rw [readLevels, hbody]
  have hbodyLen : body.length = idle + ((init ++ [last]).flatMap pulseLevels).length := by
    rw [← hbody, List.length_append, List.length_replicate]
  rw [hlevels, List.length_append, List.length_singleton] at hlen
  have hrun := capturePolls_body (s := s) (idle := idle) hhi hlow hend (by omega)
  rw [hbody, hempty] at hrun
  have hcur : (PulseBuffer.empty.writes (init.map pulseSample)).cur = 40 := by
    rw [writes_cur (by simp [hinit])]
    simp [hinit]
  have hfirst := polls_reach hacq (ls := body) (by omega) (by rw [hrun]; dsimp only; omega) [encode (.poll false)]
  rw [List.map_append, writes_append] at hspells
  rw [hrun] at hfirst
  generalize hn : s.iter + (idle + ((init ++ [last]).flatMap pulseLevels).length) = n at hfirst
  obtain ⟨hx, hends⟩ := last_poll_delivers (i := i) (s := { s with
      pb := PulseBuffer.empty.writes (init.map pulseSample), hicnt := pulseSample last, iter := n, events := [] })
    hpinst (pulseSample_ne_zero hlast) herr hspells
  refine ⟨_, ?_, hx, hends⟩
  rw [hlevels, List.map_append, List.length_append]
  refine hfirst.trans (.head ?_ (.refl _))
  exact (step_encode ..).trans (exec_poll_of_acq hacq)

/-- Settles O54: READ starts the loop with an empty buffer, and the 41 pulses store the counts that spell the frame. -/
theorem pollingReadDeliversEveryFrame : Obligations.PollingReadDeliversEveryFrame := by
  intro s i tok cnt0 idle ps f levels h hTimer hlen hbudget hlow hend hbits
  obtain rfl | ⟨init, last, rfl⟩ := ps.eq_nil_or_concat'
  · cases hlen
  replace hlen : init.length = 40 := by simpa using hlen
  have hstart := startRead_polls (p := Config.params) hTimer tok cnt0
  have hinit : ∀ p ∈ init, 1 ≤ p.2 := by
    intro p hp
    obtain ⟨n, hn, rfl⟩ := List.getElem_of_mem hp
    obtain ⟨q, hq, hlow⟩ := hlow n (by omega)
    rw [List.getElem?_append_left hn, List.getElem?_eq_getElem hn] at hq
    cases hq
    exact hlow
  have hlast : last.2 = 0 := by
    obtain ⟨q, hq, hzero⟩ := hend
    rw [List.getElem?_append_right hlen.le, hlen] at hq
    cases hq
    exact hzero
  have hspells : Spells Config.logic1 (PulseBuffer.empty.writes ((init ++ [last]).map pulseSample)) f := by
    refine spells_writes (by simp [hlen]) fun n hn => ?_
    obtain ⟨p, hp, hbit⟩ := hbits n hn
    refine ⟨pulseSample p, by rw [List.getElem?_map, hp]; rfl, ?_⟩
    rw [pulseSample_toNat (pulse_short (List.mem_of_getElem? hp) hbudget), hbit]
  obtain ⟨t, hreach, hx, hrest⟩ := polls_complete (s := startRead Config.params i tok cnt0 s) (i := i) (idle := idle)
    (by rw [hstart]) (by rw [hstart]) (by rw [hstart]) (by rw [hstart])
    (startRead_error (by rw [hTimer]; rfl) cnt0) (by rw [hstart]) hlen hbudget hinit hlast
    hspells
  refine ⟨t, ?_, ?_⟩
  · rw [Nat.add_comm]
    exact Reaches.head (read_step h _) hreach
  · rw [hx]
    exact ⟨rfl, rfl, rfl, hrest⟩

end Sys2Proof.Machine
end
